-- ==== Sys2Proof/Word.lean ====
section
/-! DEFINITION. The word types of ZA1-CE (00_scope.md R12): all values are unsigned bit vectors. -/

namespace Sys2Proof

/-- A byte: 8 bits (R12). -/
abbrev Byte := BitVec 8

/-- A word: 32 bits (R12). -/
abbrev Word := BitVec 32

/-- A 64-bit value: lengths, addresses and command words (R11). -/
abbrev Word64 := BitVec 64

/-- Sixteen words: the cipher state array `X` and the working words `W` (R20, R27). -/
abbrev Words := Vector Word 16

/-- Sixty-four bytes: one keystream block `KS` (R23). -/
abbrev KsBlock := Vector Byte 64

/-- The eight key words `KEY[0..7]` (R22). -/
abbrev KeyWords := Vector Word 8

end Sys2Proof
end

