-- ==== Sys2Proof/Syntax.lean ====
section
/-! DEFINITION. The syntax of ZA1-CE: the eight commands, the command word's two fields, the register names, and
the host's accesses (30_encoding.md R70, R71, R82; 10_state.md R31). -/

namespace Sys2Proof

/-- The commands, one constructor per row of the opcode table (R71). A command has no operand: it takes every
operand from registers and `MEM` (R70). -/
inductive Instr where
  /-- Seed the cipher state (R90). -/
  | cinit
  /-- Transform the byte in DIN to DOUT (R116). -/
  | cxorb
  /-- Transform the buffer window in place (R117). -/
  | capply
  /-- Read a CompressedRegionHeader (R125). -/
  | rdcrh
  /-- Check the size of a decompression result (R128). -/
  | dchk
  /-- Read the ArchiveHeader (R135). -/
  | ahdr
  /-- Yield the next FileRecord (R138). -/
  | anext
  /-- Reset the block (R150). -/
  | srst
deriving DecidableEq, Repr

/-- The one command format `CMDW` (R70): `op` in bits 7:0, `zero` in bits 63:8. -/
structure CommandWord where
  op : BitVec 8
  zero : BitVec 56
deriving DecidableEq, Repr

/-- The sixteen `RW` registers of the register map (R31). -/
inductive RWReg where
  | len
  | key (i : Fin 8)
  | bufBase
  | bufCnt
  | din
  | magic
  | payBase
  | payLen
  | retLen
deriving DecidableEq, Repr

/-- The `RO` registers of the register map (R31). -/
inductive ROReg where
  | status
  | fcause
  | finfo
  | wvalid
  | dout
  | cur
  | x (i : Fin 16)
  | ksw (i : Fin 16)
  | crhMax
  | crhCsz
  | ahMagic
  | ahRsvd
  | ahCount
  | ahDoff
  | rptr
  | ridx
  | frUnk
  | frNlen
  | frOff
  | frSize
  | frNamep
  | frDatap
deriving DecidableEq, Repr

/-- A register of the map, by its access kind (R30): `CMD` is the one `W` register. -/
inductive Reg where
  | cmd
  | rw (r : RWReg)
  | ro (r : ROReg)
deriving DecidableEq, Repr

/-- One access of the host, the block's only input (R5, R30, R82). Register numbers and addresses are plain
numbers, so that reserved numbers can be accessed too. -/
inductive HostAccess where
  /-- `WR number, value` (R82): a host write of a 64-bit value; number 0x00 issues a command. -/
  | wr (number : Nat) (value : Word64)
  /-- `RD number` (R82): a host read of a register. -/
  | rd (number : Nat)
  /-- `MEM[addr..] = bytes` (R82): the host's own store between commands. -/
  | memStore (addr : Nat) (bytes : List Byte)
  /-- The host's own read of `count` bytes of `MEM` between commands (R44). -/
  | memLoad (addr : Nat) (count : Nat)
  /-- The reset input is asserted (70_reset_and_hazards.md R185). -/
  | hardReset
deriving DecidableEq, Repr

/-- What the host gets back from a read. -/
inductive HostReply where
  /-- A register's value, zero-extended to 64 bits (R30). -/
  | register (value : Word64)
  /-- Bytes of `MEM`, in address order. -/
  | bytes (bs : List Byte)
deriving DecidableEq, Repr

end Sys2Proof
end

