-- ==== Sys2Proof/Decode.lean ====
section
/-! DEFINITION. The command decoder, total on every 64-bit word and rejecting by name, and the encoder
(30_encoding.md R70 to R73). The two are written apart, each from the opcode map R71. -/

namespace Sys2Proof

/-- Why a command word is illegal (R73). -/
inductive IllegalWord where
  /-- A bit of 63:8 is not 0. -/
  | nonzeroUpper
  /-- Bits 63:8 are 0 and the opcode is reserved. -/
  | reservedOpcode (op : BitVec 8)
deriving DecidableEq, Repr

/-- The two fields of a 64-bit command word (R70). -/
def CommandWord.ofWord (w : Word64) : CommandWord :=
  { op := w.extractLsb' 0 8, zero := w.extractLsb' 8 56 }

/-- The 64-bit command word of two fields (R70). -/
def CommandWord.toWord (c : CommandWord) : Word64 := c.zero ++ c.op

/-- The opcode map, from opcode to command (R71). -/
def opcodeCommand (op : BitVec 8) : Option Instr :=
  if op = 0x01 then some .cinit
  else if op = 0x02 then some .cxorb
  else if op = 0x03 then some .capply
  else if op = 0x10 then some .rdcrh
  else if op = 0x11 then some .dchk
  else if op = 0x20 then some .ahdr
  else if op = 0x21 then some .anext
  else if op = 0xFF then some .srst
  else none

/-- Decode a command word: `zero` must be 0 and the opcode assigned (R70, R73). -/
def decode (w : Word64) : Except IllegalWord Instr :=
  if (CommandWord.ofWord w).zero = 0 then
    match opcodeCommand (CommandWord.ofWord w).op with
    | some i => .ok i
    | none => .error (.reservedOpcode (CommandWord.ofWord w).op)
  else .error .nonzeroUpper

/-- The opcode of a command (R71). -/
def commandOpcode : Instr → BitVec 8
  | .cinit => 0x01
  | .cxorb => 0x02
  | .capply => 0x03
  | .rdcrh => 0x10
  | .dchk => 0x11
  | .ahdr => 0x20
  | .anext => 0x21
  | .srst => 0xFF

/-- The command word of a command: its opcode zero-extended (R72). -/
def encode (i : Instr) : Word64 := CommandWord.toWord { op := commandOpcode i, zero := 0 }

/-- The 64-bit command word whose `nbits` low bits are those of `w` and whose other bits are 0. A command word is the
value of a register write and has no byte order (R70). -/
def tableWord (nbits w : Nat) : Word64 := BitVec.ofNat 64 (w % 2 ^ nbits)

/-- What the decoder reads from a row of the opcode table whose bits are `w`. -/
def decodeTableWord (nbits w : Nat) : Option Instr :=
  match decode (tableWord nbits w) with
  | .ok i => some i
  | .error _ => none

end Sys2Proof
end

