-- ==== Sys2Proof/Config.lean ====
section
/-! DEFINITION. What is fixed for a whole run: the parameter `MEM_SIZE` and the two switches `POS` and
`FIELD_LE` (00_scope.md R9, R10; 20_memory.md R56; 10_state.md R44). The parameters `KEY` and `MAGIC` (R7, R8)
are supplied through registers and stand in the machine's state. -/

namespace Sys2Proof

/-- The parameter `POS` (R10): where the seed words stand in the sixteen-word state. -/
inductive SeedLayout where
  /-- The spec's value (40_cipher_init.md R93): constants at 0..3, key at 4..11, control words at 12..15. -/
  | rows
  /-- The reading set aside (92_eei_decisions.md D2): constants at 0, 5, 10, 15, key at 1..4 and 11..14,
  control words at 6..9. -/
  | salsaDiagonal
deriving DecidableEq, Repr

/-- The configuration of one block and its memory, which no step changes. -/
structure Config where
  /-- `MEM_SIZE`, the number of bytes of `MEM` (R9), at most 2^64. -/
  memSize : Nat
  /-- `POS` (R10). -/
  pos : SeedLayout
  /-- `FIELD_LE` (R56): the container fields are little-endian. -/
  fieldLE : Bool
deriving DecidableEq, Repr

/-- The configuration of `State.reset`. `POS` and `FIELD_LE` have the spec's values (R10, R56).
DESIGN CHOICE (log 5), unsafe: `MEM_SIZE` is open in the spec (R9); 0x1000 is the size of the spec's own programs. -/
def Config.atReset : Config := { memSize := 0x1000, pos := .rows, fieldLE := true }

end Sys2Proof
end

