-- ==== Sys2Proof/Machine/State.lean ====
section
/-! DEFINITION. The state of ZA1-CE as plain data, its latched faults, the model's own stops, and reset
(10_state.md R20 to R45; 20_memory.md R50; 60_exceptions.md R161; 70_reset_and_hazards.md R185). -/

namespace Sys2Proof.Machine

/-- The model's own stops. None is a fault of the block: the block's faults are latched in FCAUSE and FINFO and are
next states (60_exceptions.md R170). -/
inductive Fault where
  /-- Raised by the host's own store to, or read of, `MEM` when `addr + count` is above `MEM_SIZE` (20_memory.md R50), for
  `count = 0` too; no command raises it. Safe: the spec gives such an access no effect (log 9). -/
  | hostAddressOutsideMem (addr : Nat) (count : Nat)
deriving DecidableEq, Repr

/-- The model's own refusals. -/
inductive Refusal where
  /-- Raised by exec for an instruction that has no meaning yet; no instruction of this model is left without one.
  Safe: nothing can be proved of a step that is refused. -/
  | notModelled (mnemonic : String)
deriving DecidableEq, Repr

/-- The causes of a latched fault (R161); FCAUSE holds their codes. -/
inductive FaultCause where
  | decompressionSizeMismatch
  | boundsFault
  | accessFault
  | sequenceFault
  | unwrittenRegister
  | illegalCommand
deriving DecidableEq, Repr

/-- What a command raises: a cause and the information word (R170). -/
structure Raised where
  cause : FaultCause
  info : Word64
deriving DecidableEq, Repr

/-- The flags of STATUS (R32), bits 0 to 7 in this order; bits 15:8 read as 0 and are not stored. -/
structure Status where
  seeded : Bool
  faulted : Bool
  arcok : Bool
  notarc : Bool
  recv : Bool
  ended : Bool
  crhv : Bool
  dcok : Bool
deriving DecidableEq, Repr

/-- The cipher's state (R15 "CipherState"): `X`, `KS` and `CUR` (R20, R23, R24). `CUR` is an integer 0 to 64
(log 10). -/
structure CipherState where
  x : Words
  ks : KsBlock
  cur : Fin 65
deriving DecidableEq, Repr

/-- The sixteen `RW` registers (R31, R33 to R37). -/
structure HostRegs where
  len : Word64
  key : KeyWords
  bufBase : Word64
  bufCnt : Word64
  din : Byte
  magic : Word
  payBase : Word64
  payLen : Word64
  retLen : Word64
deriving DecidableEq, Repr

/-- CRH_MAX and CRH_CSZ: the last CompressedRegionHeader read (R38). -/
structure RegionHeader where
  max : Word
  csz : Word
deriving DecidableEq, Repr

/-- AH_MAGIC, AH_RSVD, AH_COUNT and AH_DOFF: the last ArchiveHeader read (R39). -/
structure ArchiveHeader where
  magic : Word
  rsvd : Word
  count : Word
  doff : Word
deriving DecidableEq, Repr

/-- FR_UNK to FR_DATAP: the last FileRecord yielded (R41). -/
structure FileRecord where
  unk : Word
  nlen : Word
  off : Word
  size : Word
  namep : Word64
  datap : Word64
deriving DecidableEq, Repr

/-- The contents of `MEM` (R50): the listed bytes by address. An address that is not listed reads as
`Memory.unlistedByte`. -/
abbrev Memory := List Host.Cell

end Sys2Proof.Machine

namespace Sys2Proof.Machine

/-- The machine: the configuration, the block's state, `MEM`, and the model's own two lists of host traffic. -/
structure State where
  /-- The configuration, which no step changes (R44). -/
  cfg : Config
  /-- `X`, `KS`, `CUR`. -/
  cipher : CipherState
  /-- The `RW` registers. -/
  regs : HostRegs
  /-- The sixteen written-valid bits, which WVALID shows (R42). -/
  wvalid : BitVec 16
  /-- DOUT (R35). -/
  dout : Byte
  /-- STATUS (R32). -/
  status : Status
  /-- FCAUSE (R161). -/
  fcause : BitVec 8
  /-- FINFO (R161). -/
  finfo : Word64
  /-- CRH_MAX, CRH_CSZ. -/
  crh : RegionHeader
  /-- AH_MAGIC, AH_RSVD, AH_COUNT, AH_DOFF. -/
  ah : ArchiveHeader
  /-- RPTR, the payload offset of the next unread FileRecord (R40). -/
  rptr : Word64
  /-- RIDX, the number of FileRecords yielded (R40). -/
  ridx : Word
  /-- FR_UNK to FR_DATAP. -/
  fr : FileRecord
  /-- `MEM`, which is not part of the block (R44). -/
  mem : Memory
  /-- The model's own (log 1): the host accesses not yet served, oldest first. -/
  pending : List HostAccess
  /-- The model's own (log 3): what the block answered to the host's reads, oldest first. -/
  replies : List HostReply
deriving DecidableEq, Repr

/-- The machine right after reset under a configuration: every value of 10_state.md R45, nothing listed in `MEM`
(log 8), and no host access served or waiting. -/
def State.resetWith (cfg : Config) : State where
  cfg := cfg
  cipher := { x := Vector.replicate 16 0, ks := Vector.replicate 64 0, cur := 64 }
  regs :=
    { len := 0, key := Vector.replicate 8 0, bufBase := 0, bufCnt := 0, din := 0, magic := 0,
      payBase := 0, payLen := 0, retLen := 0 }
  wvalid := 0
  dout := 0
  status :=
    { seeded := false, faulted := false, arcok := false, notarc := false, recv := false, ended := false,
      crhv := false, dcok := false }
  fcause := 0
  finfo := 0
  crh := { max := 0, csz := 0 }
  ah := { magic := 0, rsvd := 0, count := 0, doff := 0 }
  rptr := 0
  ridx := 0
  fr := { unk := 0, nlen := 0, off := 0, size := 0, namep := 0, datap := 0 }
  mem := []
  pending := []
  replies := []

/-- The machine right after reset, under the configuration `Config.atReset`. -/
def State.reset : State := State.resetWith Config.atReset

end Sys2Proof.Machine
end

