-- ==== Sys2Proof/Machine/Flags.lean ====
section
/-! DEFINITION. STATUS: its bits as the host reads them, and what each command does to its flags (10_state.md R32). -/

namespace Sys2Proof.Machine

/-- STATUS as the host reads it: bits 0 to 7 are the flags, bits 15:8 are 0 (R32). -/
def Status.toBits (st : Status) : BitVec 16 :=
  BitVec.ofNat 16
    (st.seeded.toNat + 2 * st.faulted.toNat + 4 * st.arcok.toNat + 8 * st.notarc.toNat + 16 * st.recv.toNat
      + 32 * st.ended.toNat + 64 * st.crhv.toNat + 128 * st.dcok.toNat)

/-- CINIT sets SEEDED and changes no other flag (40_cipher_init.md R90). -/
def Status.afterCinit (st : Status) : Status := { st with seeded := true }

/-- RDCRH sets CRHV and clears DCOK (43_region_header.md R125). -/
def Status.afterRdcrh (st : Status) : Status := { st with crhv := true, dcok := false }

/-- DCHK sets DCOK on a match (43_region_header.md R128). -/
def Status.afterDchk (st : Status) : Status := { st with dcok := true }

/-- AHDR clears RECV and END; a match sets ARCOK and clears NOTARC, a mismatch the other way round
(44_archive_reader.md R135). -/
def Status.afterAhdr (st : Status) (isMatch : Bool) : Status :=
  { st with recv := false, ended := false, arcok := isMatch, notarc := !isMatch }

/-- An ANEXT that yields a record sets RECV (44_archive_reader.md R138). -/
def Status.afterRecord (st : Status) : Status := { st with recv := true }

/-- An ANEXT that yields none clears RECV and sets END (44_archive_reader.md R138). -/
def Status.afterEnd (st : Status) : Status := { st with recv := false, ended := true }

/-- A fault sets FAULTED (60_exceptions.md R170). -/
def Status.afterFault (st : Status) : Status := { st with faulted := true }

end Sys2Proof.Machine
end

