-- ==== Sys2Proof/Machine/Memory.lean ====
section
/-! DEFINITION. `MEM`: reading, writing and its canonical form (20_memory.md R50, R52, R53), and the byte order of
words and container fields (00_scope.md R13; 20_memory.md R56, R57). -/

namespace Sys2Proof.Machine

/-- What an address that is not listed reads as. DESIGN CHOICE (log 8), unsafe: the spec does not give the contents
of `MEM` before the host writes it; it only says that reset does not touch them (10_state.md R45). -/
def Memory.unlistedByte : Byte := 0

/-- `MEM[addr]`; a read has no side effect (R52). -/
def Memory.readByte : Memory → Nat → Byte
  | [], _ => Memory.unlistedByte
  | (a, b) :: rest, addr => if a = addr then b else Memory.readByte rest addr

/-- The list `m` with `(addr, v)` in front, or `m` itself where `v` is what an unlisted address reads as. -/
def Memory.consByte (addr : Nat) (v : Byte) (m : Memory) : Memory :=
  if v = Memory.unlistedByte then m else (addr, v) :: m

/-- `MEM[addr] <- v` (R53), keeping the canonical form. -/
def Memory.writeByte : Memory → Nat → Byte → Memory
  | [], addr, v => Memory.consByte addr v []
  | (a, b) :: rest, addr, v =>
    if addr < a then Memory.consByte addr v ((a, b) :: rest)
    else if addr = a then Memory.consByte addr v rest
    else (a, b) :: Memory.writeByte rest addr v

/-- `MemRead(addr, n)`: the `n` bytes from `addr` up, in that order (R52). -/
def Memory.readBytes (m : Memory) : Nat → Nat → List Byte
  | _, 0 => []
  | addr, n + 1 => m.readByte addr :: Memory.readBytes m (addr + 1) n

/-- `MemWrite(addr, n, v)`: the bytes of a list stored from `addr` up, in that order (R53). -/
def Memory.writeBytes : Memory → Nat → List Byte → Memory
  | m, _, [] => m
  | m, addr, b :: bs => Memory.writeBytes (m.writeByte addr b) (addr + 1) bs

/-- The canonical form of `MEM` above a least address: addresses strictly rising from `low`, each below `size`, and no
entry equal to what an unlisted address reads as. -/
def Memory.canonicalFrom (size : Nat) : Nat → Memory → Bool
  | _, [] => true
  | low, (a, b) :: rest =>
    decide (low ≤ a) && decide (a < size) && decide (b ≠ Memory.unlistedByte)
      && Memory.canonicalFrom size (a + 1) rest

/-- The canonical form of a memory of `size` bytes. -/
def Memory.wf (size : Nat) (m : Memory) : Bool := Memory.canonicalFrom size 0 m

/-- `LE32`: four bytes, lowest address first, as a little-endian word (R13). -/
def le32 (b0 b1 b2 b3 : Byte) : Word := b3 ++ b2 ++ b1 ++ b0

/-- `byte_j(w)`, byte `j` of a word (R13). -/
def byteOf (j : Nat) (w : Word) : Byte := w.extractLsb' (8 * j) 8

/-- A 32-bit container field at an address, in the byte order of the switch `FIELD_LE` (R56). With the switch off the
byte at the lowest address is the most significant (log 7). -/
def Memory.readField (fieldLE : Bool) (m : Memory) (addr : Nat) : Word :=
  if fieldLE then
    le32 (m.readByte addr) (m.readByte (addr + 1)) (m.readByte (addr + 2)) (m.readByte (addr + 3))
  else
    le32 (m.readByte (addr + 3)) (m.readByte (addr + 2)) (m.readByte (addr + 1)) (m.readByte addr)

end Sys2Proof.Machine
end

