-- ==== Sys2Proof/Machine/Operands.lean ====
section
/-! DEFINITION. The register map: numbers, widths, written-valid indices, and the `RW` register file
(10_state.md R30, R31, R42). -/

namespace Sys2Proof.Machine

/-- The number of an `RW` register (R31). -/
def rwNumber : RWReg → Nat
  | .len => 0x08
  | .key i => 0x10 + i.val
  | .bufBase => 0x18
  | .bufCnt => 0x19
  | .din => 0x1A
  | .magic => 0x40
  | .payBase => 0x41
  | .payLen => 0x42
  | .retLen => 0x43

/-- The number of an `RO` register (R31). -/
def roNumber : ROReg → Nat
  | .status => 0x01
  | .fcause => 0x02
  | .finfo => 0x03
  | .wvalid => 0x04
  | .dout => 0x1B
  | .cur => 0x1C
  | .x i => 0x20 + i.val
  | .ksw i => 0x30 + i.val
  | .crhMax => 0x48
  | .crhCsz => 0x49
  | .ahMagic => 0x50
  | .ahRsvd => 0x51
  | .ahCount => 0x52
  | .ahDoff => 0x53
  | .rptr => 0x54
  | .ridx => 0x55
  | .frUnk => 0x58
  | .frNlen => 0x59
  | .frOff => 0x5A
  | .frSize => 0x5B
  | .frNamep => 0x5C
  | .frDatap => 0x5D

/-- The number of a register of the map (R31); `CMD` is number 0x00. -/
def regNumber : Reg → Nat
  | .cmd => 0x00
  | .rw r => rwNumber r
  | .ro r => roNumber r

/-- The width in bits of an `RW` register (R31). -/
def rwWidth : RWReg → Nat
  | .len => 64
  | .key _ => 32
  | .bufBase => 64
  | .bufCnt => 64
  | .din => 8
  | .magic => 32
  | .payBase => 64
  | .payLen => 64
  | .retLen => 64

/-- The width in bits of an `RO` register (R31). -/
def roWidth : ROReg → Nat
  | .status => 16
  | .fcause => 8
  | .finfo => 64
  | .wvalid => 16
  | .dout => 8
  | .cur => 7
  | .x _ => 32
  | .ksw _ => 32
  | .crhMax => 32
  | .crhCsz => 32
  | .ahMagic => 32
  | .ahRsvd => 32
  | .ahCount => 32
  | .ahDoff => 32
  | .rptr => 64
  | .ridx => 32
  | .frUnk => 32
  | .frNlen => 32
  | .frOff => 32
  | .frSize => 32
  | .frNamep => 64
  | .frDatap => 64

/-- The index of an `RW` register's written-valid bit in WVALID (R31). -/
def wvIndex : RWReg → Nat
  | .len => 0
  | .key i => 1 + i.val
  | .bufBase => 9
  | .bufCnt => 10
  | .din => 11
  | .magic => 12
  | .payBase => 13
  | .payLen => 14
  | .retLen => 15

/-- The `RW` registers, in the order of their written-valid indices. -/
def allRW : List RWReg :=
  [.len, .key 0, .key 1, .key 2, .key 3, .key 4, .key 5, .key 6, .key 7, .bufBase, .bufCnt, .din, .magic,
    .payBase, .payLen, .retLen]

/-- The `RO` registers, in the order of their numbers. -/
def allRO : List ROReg :=
  [.status, .fcause, .finfo, .wvalid, .dout, .cur, .x 0, .x 1, .x 2, .x 3, .x 4, .x 5, .x 6, .x 7, .x 8, .x 9,
    .x 10, .x 11, .x 12, .x 13, .x 14, .x 15, .ksw 0, .ksw 1, .ksw 2, .ksw 3, .ksw 4, .ksw 5, .ksw 6, .ksw 7,
    .ksw 8, .ksw 9, .ksw 10, .ksw 11, .ksw 12, .ksw 13, .ksw 14, .ksw 15, .crhMax, .crhCsz, .ahMagic, .ahRsvd,
    .ahCount, .ahDoff, .rptr, .ridx, .frUnk, .frNlen, .frOff, .frSize, .frNamep, .frDatap]

/-- Every register of the map (R31). -/
def allRegs : List Reg := .cmd :: (allRW.map .rw ++ allRO.map .ro)

/-- The register a number names; none for a reserved number (R31). -/
def regOfNumber (n : Nat) : Option Reg := allRegs.find? (fun r => regNumber r == n)

/-- The value of an `RW` register, zero-extended to 64 bits (R30). -/
def HostRegs.read (h : HostRegs) : RWReg → Word64
  | .len => h.len
  | .key i => h.key[i].setWidth 64
  | .bufBase => h.bufBase
  | .bufCnt => h.bufCnt
  | .din => h.din.setWidth 64
  | .magic => h.magic.setWidth 64
  | .payBase => h.payBase
  | .payLen => h.payLen
  | .retLen => h.retLen

/-- A host write of an `RW` register: the value truncated to the register's width (R30). -/
def HostRegs.write (h : HostRegs) (r : RWReg) (v : Word64) : HostRegs :=
  match r with
  | .len => { h with len := v }
  | .key i => { h with key := h.key.set i (v.setWidth 32) }
  | .bufBase => { h with bufBase := v }
  | .bufCnt => { h with bufCnt := v }
  | .din => { h with din := v.setWidth 8 }
  | .magic => { h with magic := v.setWidth 32 }
  | .payBase => { h with payBase := v }
  | .payLen => { h with payLen := v }
  | .retLen => { h with retLen := v }

/-- `KSWi`: four bytes of `KS` as a little-endian word (R23). -/
def kswWord (ks : KsBlock) (i : Fin 16) : Word :=
  le32 ks[4 * i.val] ks[4 * i.val + 1] ks[4 * i.val + 2] ks[4 * i.val + 3]

end Sys2Proof.Machine
end

