-- ==== Sys2Proof/Machine/Ops.lean ====
section
/-! DEFINITION. The shared operations: taking a fault and the reset that ends it, the checks of the command prologues,
the frame every command runs in, and the register accesses (60_exceptions.md R161 to R172; 10_state.md R30, R42,
R43). -/

namespace Sys2Proof.Machine

/-- The code of a cause in FCAUSE (R161). -/
def causeCode : FaultCause → BitVec 8
  | .decompressionSizeMismatch => 1
  | .boundsFault => 2
  | .accessFault => 3
  | .sequenceFault => 4
  | .unwrittenRegister => 5
  | .illegalCommand => 6

/-- Fault entry, `raise F(info)`: FCAUSE, FINFO and FAULTED are written and nothing else changes (R170). -/
def State.raise (s : State) (f : Raised) : State :=
  { s with fcause := causeCode f.cause, finfo := f.info, status := s.status.afterFault }

/-- Reset, by SRST or by the reset input, the only way out of the faulted state: every element of the block takes its
value of 10_state.md R45; `MEM` is not touched (R150, R172, R185). The configuration and the two lists of host
traffic are no part of the block. -/
def State.resetBlock (s : State) : State :=
  { State.resetWith s.cfg with mem := s.mem, pending := s.pending, replies := s.replies }

/-- `wv(r)`: the written-valid bit of an `RW` register (R42). -/
def State.wv (s : State) (r : RWReg) : Bool := s.wvalid.getLsbD (wvIndex r)

/-- A check of a command's prologue: go on where the condition holds, raise otherwise. -/
def require (ok : Bool) (cause : FaultCause) (info : Word64) : Except Raised Unit :=
  if ok then .ok () else .error { cause := cause, info := info }

/-- `SequenceFault` unless the prerequisite holds; FINFO is the opcode (R166). -/
def requireSequence (ok : Bool) (opcode : Word64) : Except Raised Unit := require ok .sequenceFault opcode

/-- `UnwrittenRegister` for the first register of the list that was not written since reset; FINFO is its number
(R167). -/
def requireWritten (s : State) : List RWReg → Except Raised Unit
  | [] => .ok ()
  | r :: rs =>
    if s.wv r then requireWritten s rs
    else .error { cause := .unwrittenRegister, info := BitVec.ofNat 64 (rwNumber r) }

/-- `AccessFault` unless the window lies inside `MEM`, the sum taken in natural numbers; FINFO is the base (R54, R55,
R165). -/
def requireWindow (s : State) (base length : Word64) : Except Raised Unit :=
  require (decide (base.toNat + length.toNat ≤ s.cfg.memSize)) .accessFault base

/-- `BoundsFault` unless the payload has at least `stop` bytes; FINFO is the payload offset of the field that cannot be
honoured (R55, R164). -/
def requireBounds (s : State) (stop : Nat) (offset : Word64) : Except Raised Unit :=
  require (decide (stop ≤ s.regs.payLen.toNat)) .boundsFault offset

/-- The 32-bit field at a payload offset: `MemRead32(PAY_BASE + o)` (R55, R56). -/
def State.payField (s : State) (o : Nat) : Word := s.mem.readField s.cfg.fieldLE (s.regs.payBase.toNat + o)

/-- The frame every command but SRST runs in: while FAULTED is 1 the command is ignored (R70, R171); a command that raises
changes nothing but the fault registers (R170). -/
def runCommand (body : State → Except Raised State) (s : State) : Host.Outcome State Fault Refusal :=
  if s.status.faulted then .next s
  else
    match body s with
    | .ok t => .next t
    | .error f => .next (s.raise f)

/-- The value of an `RO` register, zero-extended to 64 bits (R30, R31). -/
def State.readRO (s : State) : ROReg → Word64
  | .status => s.status.toBits.setWidth 64
  | .fcause => s.fcause.setWidth 64
  | .finfo => s.finfo
  | .wvalid => s.wvalid.setWidth 64
  | .dout => s.dout.setWidth 64
  | .cur => BitVec.ofNat 64 s.cipher.cur.val
  | .x i => s.cipher.x[i].setWidth 64
  | .ksw i => (kswWord s.cipher.ks i).setWidth 64
  | .crhMax => s.crh.max.setWidth 64
  | .crhCsz => s.crh.csz.setWidth 64
  | .ahMagic => s.ah.magic.setWidth 64
  | .ahRsvd => s.ah.rsvd.setWidth 64
  | .ahCount => s.ah.count.setWidth 64
  | .ahDoff => s.ah.doff.setWidth 64
  | .rptr => s.rptr
  | .ridx => s.ridx.setWidth 64
  | .frUnk => s.fr.unk.setWidth 64
  | .frNlen => s.fr.nlen.setWidth 64
  | .frOff => s.fr.off.setWidth 64
  | .frSize => s.fr.size.setWidth 64
  | .frNamep => s.fr.namep
  | .frDatap => s.fr.datap

/-- What a host read of a register number returns: `CMD` and reserved numbers read as 0 (R30). -/
def State.readNumber (s : State) (n : Nat) : Word64 :=
  match regOfNumber n with
  | some (.rw r) => s.regs.read r
  | some (.ro r) => s.readRO r
  | some .cmd => 0
  | none => 0

/-- A host write of an `RW` register: the truncated value is stored and the written-valid bit set, in every state of the
block (R30, R42, R43). -/
def State.writeRW (s : State) (r : RWReg) (v : Word64) : State :=
  { s with regs := s.regs.write r v, wvalid := s.wvalid ||| (1#16 <<< wvIndex r) }

/-- The answer to a host read, put after the earlier ones (log 3). -/
def State.reply (s : State) (a : HostReply) : State := { s with replies := s.replies ++ [a] }

end Sys2Proof.Machine
end

