-- ==== Sys2Proof/Machine/Archive.lean ====
section
/-! DEFINITION. AHDR and ANEXT, the archive descriptor reader (44_archive_reader.md R135, R138). -/

namespace Sys2Proof.Machine

/-- AH_RSVD: the four reserved bytes, lowest address least significant, so that `byte_j` of it is the byte at header offset
`4 + j` (10_state.md R31, R39). DEDUCED (log 19): the switch FIELD_LE does not reach these opaque bytes. -/
def State.reservedBytes (s : State) : Word := s.mem.readField true (s.regs.payBase.toNat + 4)

/-- The four fields of the ArchiveHeader at payload offset 0 (30_encoding.md R77). -/
def State.headerFields (s : State) : ArchiveHeader :=
  { magic := s.payField 0, rsvd := s.reservedBytes, count := s.payField 8, doff := s.payField 12 }

/-- AHDR past the faulted-state test (R135). -/
def ahdrBody (s : State) : Except Raised State := do
  requireWritten s [.magic, .payBase, .payLen]
  requireWindow s s.regs.payBase s.regs.payLen
  requireBounds s 16 0
  let h := s.headerFields
  return { s with
    ah := h
    rptr := 16
    ridx := 0
    status := s.status.afterAhdr (h.magic == s.regs.magic) }

/-- AHDR (R135). -/
def execAhdr (s : State) : Host.Outcome State Fault Refusal := runCommand ahdrBody s

/-- The FileRecord at payload offset `r`, as ANEXT reports it (30_encoding.md R78; R139). DEDUCED (log 19): FR_UNK, opaque as
it is, is a 32-bit field of the record, so it is read in the byte order of the switch FIELD_LE like the other three
(20_memory.md R56; 92_eei_decisions.md D9). -/
def State.recordFields (s : State) (r : Nat) : FileRecord :=
  { unk := s.payField r
    nlen := s.payField (r + 4)
    off := s.payField (r + 8)
    size := s.payField (r + 12)
    namep := BitVec.ofNat 64 (r + 16)
    datap := BitVec.ofNat 64 (s.ah.doff.toNat + (s.payField (r + 8)).toNat) }

/-- The walk has no record to yield: NOTARC is set, or RIDX has reached AH_COUNT (R138). -/
def State.walkFinished (s : State) : Bool := s.status.notarc || s.ridx == s.ah.count

/-- ANEXT past the faulted-state test (R138). All sums are natural-number sums (00_scope.md R14); those that reach a
64-bit register are bounded by the checks before them (log 15). -/
def anextBody (s : State) : Except Raised State := do
  requireSequence (s.status.arcok || s.status.notarc) 0x21
  if s.walkFinished then
    return { s with status := s.status.afterEnd }
  else
    requireWritten s [.payBase, .payLen]
    requireWindow s s.regs.payBase s.regs.payLen
    let r := s.rptr.toNat
    requireBounds s (r + 16) s.rptr
    let f := s.recordFields r
    requireBounds s (r + 16 + f.nlen.toNat) (BitVec.ofNat 64 (r + 4))
    requireBounds s (s.ah.doff.toNat + f.off.toNat + f.size.toNat) (BitVec.ofNat 64 (r + 8))
    return { s with
      fr := f
      rptr := BitVec.ofNat 64 (r + 16 + f.nlen.toNat)
      ridx := s.ridx + 1
      status := s.status.afterRecord }

/-- ANEXT (R138). -/
def execAnext (s : State) : Host.Outcome State Fault Refusal := runCommand anextBody s

end Sys2Proof.Machine
end

