-- ==== Sys2Proof/Machine/Keystream.lean ====
section
/-! DEFINITION. The cipher: the quarter-round and the rounds, the block function, KSGEN, XSTEP, and seeding
(40_cipher_init.md R91 to R94; 41_keystream_block.md R100 to R110; 42_xor_engine.md R115). -/

namespace Sys2Proof.Machine

/-- The quarter-round `QR(a, b, c, d)` (R101). -/
def quarterRound (a b c d : Word) : Word × Word × Word × Word :=
  let a := a + b
  let d := (d ^^^ a).rotateLeft 16
  let c := c + d
  let b := (b ^^^ c).rotateLeft 12
  let a := a + b
  let d := (d ^^^ a).rotateLeft 8
  let c := c + d
  let b := (b ^^^ c).rotateLeft 7
  (a, b, c, d)

/-- The column round: `QR` on each of the columns (0,4,8,12), (1,5,9,13), (2,6,10,14), (3,7,11,15) (R100, R102). -/
def columnRound (w : Words) : Words :=
  match quarterRound w[0] w[4] w[8] w[12], quarterRound w[1] w[5] w[9] w[13],
    quarterRound w[2] w[6] w[10] w[14], quarterRound w[3] w[7] w[11] w[15] with
  | (w0, w4, w8, w12), (w1, w5, w9, w13), (w2, w6, w10, w14), (w3, w7, w11, w15) =>
    #v[w0, w1, w2, w3, w4, w5, w6, w7, w8, w9, w10, w11, w12, w13, w14, w15]

/-- The diagonal round: `QR` on each of the diagonals (0,5,10,15), (1,6,11,12), (2,7,8,13), (3,4,9,14)
(R100, R103). -/
def diagonalRound (w : Words) : Words :=
  match quarterRound w[0] w[5] w[10] w[15], quarterRound w[1] w[6] w[11] w[12],
    quarterRound w[2] w[7] w[8] w[13], quarterRound w[3] w[4] w[9] w[14] with
  | (w0, w5, w10, w15), (w1, w6, w11, w12), (w2, w7, w8, w13), (w3, w4, w9, w14) =>
    #v[w0, w1, w2, w3, w4, w5, w6, w7, w8, w9, w10, w11, w12, w13, w14, w15]

/-- A number of double rounds, each a column round and then a diagonal round (R104). -/
def doubleRounds : Nat → Words → Words
  | 0, w => w
  | n + 1, w => doubleRounds n (diagonalRound (columnRound w))

/-- The sixteen output words: ten double rounds and the feed-forward (R104, R105). -/
def blockWords (x : Words) : Words :=
  let w := doubleRounds 10 x
  Vector.ofFn fun i : Fin 16 => w[i] + x[i]

/-- Serialisation: `KS[4i+j] <- byte_j(out[i])` (R107). -/
def serialise (out : Words) : KsBlock :=
  Vector.ofFn fun p : Fin 64 => byteOf (p.val % 4) (out[p.val / 4])

/-- The block function `BLOCK(S)` (R110). -/
def blockBytes (x : Words) : KsBlock := serialise (blockWords x)

/-- The index of control word T0, the low half of the block counter (R93; for the set-aside layout
92_eei_decisions.md D2). -/
def counterLow : SeedLayout → Fin 16
  | .rows => 12
  | .salsaDiagonal => 6

/-- The index of control word T1, the high half of the block counter (R93, D2). -/
def counterHigh : SeedLayout → Fin 16
  | .rows => 13
  | .salsaDiagonal => 7

/-- The 64-bit block counter `X[13]:X[12]` (R108). -/
def blockCounter (pos : SeedLayout) (x : Words) : Word64 := x[counterHigh pos] ++ x[counterLow pos]

/-- The state array with the two counter words those of a 64-bit number (R108). -/
def withCounter (pos : SeedLayout) (x : Words) (n : Word64) : Words :=
  (x.set (counterLow pos) (n.setWidth 32)).set (counterHigh pos) (n.extractLsb' 32 32)

/-- KSGEN: one keystream block from `X`, then the counter step, then the cursor to 0 (R106, R108, R109). -/
def CipherState.ksgen (pos : SeedLayout) (c : CipherState) : CipherState :=
  { x := withCounter pos c.x (blockCounter pos c.x + 1), ks := blockBytes c.x, cur := 0 }

/-- KSGEN where the cursor has reached 64, nothing otherwise: the first line of XSTEP (R115). -/
def CipherState.refill (pos : SeedLayout) (c : CipherState) : CipherState :=
  if c.cur = 64 then c.ksgen pos else c

/-- `KS[CUR]`. XSTEP reads it only where `CUR < 64` (`refill_cur_lt`), so the second branch is never taken there. -/
def CipherState.keystreamByte (c : CipherState) : Byte :=
  if h : c.cur.val < 64 then c.ks[c.cur.val] else 0

/-- XSTEP (R115): the transformed byte and the cipher state after it. -/
def CipherState.xstep (pos : SeedLayout) (b : Byte) (c : CipherState) : Byte × CipherState :=
  let c' := c.refill pos
  (b ^^^ c'.keystreamByte, { c' with cur := c'.cur + 1 })

/-- XSTEP over the bytes of a list, in order: the bytes out and the cipher state after them (R115, R118). -/
def CipherState.xsteps (pos : SeedLayout) : List Byte → CipherState → List Byte × CipherState
  | [], c => ([], c)
  | b :: bs, c =>
    let r := c.xstep pos b
    let rs := CipherState.xsteps pos bs r.2
    (r.1 :: rs.1, rs.2)

/-- The loop of CAPPLY (42_xor_engine.md R117, R68): `n` bytes from `addr` up, each read, transformed and written back to
the address it was read from. -/
def applyBytes (pos : SeedLayout) : Nat → Nat → CipherState → Memory → CipherState × Memory
  | 0, _, c, m => (c, m)
  | n + 1, addr, c, m =>
    let r := c.xstep pos (m.readByte addr)
    applyBytes pos n (addr + 1) r.2 (m.writeByte addr r.1)

/-- The four constant words C0 to C3: the sixteen ASCII bytes of the constant string, as little-endian words (R92). -/
def constantWords : Vector Word 4 :=
  #v[le32 0x65 0x78 0x70 0x61, le32 0x6E 0x64 0x20 0x33, le32 0x32 0x2D 0x62 0x79, le32 0x74 0x65 0x20 0x6B]

/-- The four control words T0 to T3 of a total length (R91). -/
def controlWords (len : Word64) : Vector Word 4 :=
  let l : Word := len.setWidth 32
  #v[0, l, (len + 1).setWidth 32, l ^^^ 0xFFFFFFFF]

/-- The placement of the seed words in the state (R93; the set-aside layout as D2 writes it out). -/
def seedWords (pos : SeedLayout) (key : KeyWords) (len : Word64) : Words :=
  let k := constantWords
  let t := controlWords len
  match pos with
  | .rows =>
    #v[k[0], k[1], k[2], k[3], key[0], key[1], key[2], key[3], key[4], key[5], key[6], key[7],
      t[0], t[1], t[2], t[3]]
  | .salsaDiagonal =>
    #v[k[0], key[0], key[1], key[2], key[3], k[1], t[0], t[1], t[2], t[3], k[2], key[4], key[5], key[6],
      key[7], k[3]]

/-- `SEED(n)` (R110): the seed of the `n`-th block, that is the seed array with the block counter advanced by `n`. -/
def seedAt (pos : SeedLayout) (key : KeyWords) (len : Word64) (n : Nat) : Words :=
  withCounter pos (seedWords pos key len) (blockCounter pos (seedWords pos key len) + BitVec.ofNat 64 n)

/-- The cipher state that CINIT leaves: the seed, the cursor at 64, and `KS` as it was (R90, R94; 92_eei_decisions.md
D24). -/
def CipherState.seed (pos : SeedLayout) (key : KeyWords) (len : Word64) (c : CipherState) : CipherState :=
  { x := seedWords pos key len, ks := c.ks, cur := 64 }

end Sys2Proof.Machine
end

