-- ==== Sys2Proof/Machine/CipherInit.lean ====
section
/-! DEFINITION. CINIT, the command of `cipher_engine` (40_cipher_init.md R90). -/

namespace Sys2Proof.Machine

/-- The registers CINIT reads, in the order it tests them (R90, R167). -/
def cinitRegs : List RWReg := [.len, .key 0, .key 1, .key 2, .key 3, .key 4, .key 5, .key 6, .key 7]

/-- CINIT past the faulted-state test (R90). -/
def cinitBody (s : State) : Except Raised State := do
  requireWritten s cinitRegs
  return { s with
    cipher := s.cipher.seed s.cfg.pos s.regs.key s.regs.len
    status := s.status.afterCinit }

/-- CINIT (R90). -/
def execCinit (s : State) : Host.Outcome State Fault Refusal := runCommand cinitBody s

end Sys2Proof.Machine
end

