-- ==== Sys2Proof/Machine/RegionHeader.lean ====
section
/-! DEFINITION. RDCRH and DCHK, the compressed-region header commands (43_region_header.md R125, R128). -/

namespace Sys2Proof.Machine

/-- RDCRH past the faulted-state test (R125; layout 30_encoding.md R76). -/
def rdcrhBody (s : State) : Except Raised State := do
  requireWritten s [.payBase, .payLen]
  requireWindow s s.regs.payBase s.regs.payLen
  requireBounds s 8 0
  let m := s.payField 0
  let c := s.payField 4
  requireBounds s (8 + c.toNat) 4
  return { s with crh := { max := m, csz := c }, status := s.status.afterRdcrh }

/-- RDCRH (R125). -/
def execRdcrh (s : State) : Host.Outcome State Fault Refusal := runCommand rdcrhBody s

/-- DCHK past the faulted-state test: the comparison is on all 64 bits of RETLEN (R128). -/
def dchkBody (s : State) : Except Raised State := do
  requireSequence s.status.crhv 0x11
  requireWritten s [.retLen]
  require (s.regs.retLen == s.crh.max.setWidth 64) .decompressionSizeMismatch s.regs.retLen
  return { s with status := s.status.afterDchk }

/-- DCHK (R128). -/
def execDchk (s : State) : Host.Outcome State Fault Refusal := runCommand dchkBody s

end Sys2Proof.Machine
end

