-- ==== Sys2Proof/Machine/System.lean ====
section
/-! DEFINITION. SRST, the one system command (45_system_ops.md R150). -/

namespace Sys2Proof.Machine

/-- SRST (R150): the block is reset; it is the only command that acts while FAULTED is 1. -/
def execSrst (s : State) : Host.Outcome State Fault Refusal := .next s.resetBlock

end Sys2Proof.Machine
end

