-- ==== Sys2Proof/Machine/XorEngine.lean ====
section
/-! DEFINITION. CXORB and CAPPLY, the commands of `xor_array` (42_xor_engine.md R116, R117). -/

namespace Sys2Proof.Machine

/-- CXORB past the faulted-state test (R116). -/
def cxorbBody (s : State) : Except Raised State := do
  requireSequence s.status.seeded 0x02
  requireWritten s [.din]
  let r := s.cipher.xstep s.cfg.pos s.regs.din
  return { s with dout := r.1, cipher := r.2 }

/-- CXORB (R116). -/
def execCxorb (s : State) : Host.Outcome State Fault Refusal := runCommand cxorbBody s

/-- CAPPLY past the faulted-state test (R117). -/
def capplyBody (s : State) : Except Raised State := do
  requireSequence s.status.seeded 0x03
  requireWritten s [.bufBase, .bufCnt]
  requireWindow s s.regs.bufBase s.regs.bufCnt
  let r := applyBytes s.cfg.pos s.regs.bufCnt.toNat s.regs.bufBase.toNat s.cipher s.mem
  return { s with cipher := r.1, mem := r.2 }

/-- CAPPLY (R117). -/
def execCapply (s : State) : Host.Outcome State Fault Refusal := runCommand capplyBody s

end Sys2Proof.Machine
end

