-- ==== Sys2Proof/Machine/Dispatch.lean ====
section
/-! DEFINITION. The meaning of every command: one arm per constructor of Instr, each a direct call. -/

namespace Sys2Proof.Machine

def exec (i : Instr) (s : State) : Host.Outcome State Fault Refusal :=
  match i with
  | .cinit => Sys2Proof.Machine.execCinit s
  | .cxorb => Sys2Proof.Machine.execCxorb s
  | .capply => Sys2Proof.Machine.execCapply s
  | .rdcrh => Sys2Proof.Machine.execRdcrh s
  | .dchk => Sys2Proof.Machine.execDchk s
  | .ahdr => Sys2Proof.Machine.execAhdr s
  | .anext => Sys2Proof.Machine.execAnext s
  | .srst => Sys2Proof.Machine.execSrst s

end Sys2Proof.Machine
end

