-- ==== Sys2Proof/WellFormed.lean ====
section
/-! DEFINITION. The checks on syntax and configuration: which terms the spec admits. -/

namespace Sys2Proof

/-- The assigned opcodes, as the opcode map lists them (30_encoding.md R71). -/
def assignedOpcodes : List (BitVec 8) := [0x01, 0x02, 0x03, 0x10, 0x11, 0x20, 0x21, 0xFF]

/-- A command word is legal when its `zero` field is 0 and its opcode is assigned (R70, R73). -/
def CommandWord.wellFormed (c : CommandWord) : Bool := c.zero == 0 && assignedOpcodes.contains c.op

/-- A command has no operand field, so every command is well formed (R70). -/
def Instr.wellFormed (_ : Instr) : Bool := true

/-- `MEM_SIZE` is a natural number at most 2^64 (R9). -/
def Config.wellFormed (cfg : Config) : Bool := decide (cfg.memSize ≤ 2 ^ 64)

/-- The host's own memory accesses stay inside `MEM` (R50: addresses 0 to `MEM_SIZE - 1`); a register access may name
any number (R30). DESIGN CHOICE (log 9), safe: an access of 0 bytes, which names no byte and on which R50 is silent, is
admitted at addresses up to `MEM_SIZE` and not above, as R54 admits an empty buffer window. -/
def HostAccess.wellFormed (cfg : Config) : HostAccess → Bool
  | .wr _ _ => true
  | .rd _ => true
  | .memStore addr bytes => decide (addr + bytes.length ≤ cfg.memSize)
  | .memLoad addr count => decide (addr + count ≤ cfg.memSize)
  | .hardReset => true

end Sys2Proof
end

