-- ==== Sys2Proof/Machine/HostPort.lean ====
section
/-! DEFINITION. Serving one host access: the write to CMD, register writes and reads, the host's own memory accesses,
and the reset input (30_encoding.md R70; 10_state.md R30, R43; 45_system_ops.md R151; 70_reset_and_hazards.md
R185). -/

namespace Sys2Proof.Machine

/-- A host write of the word `w` to CMD (R70): a legal word runs its command; an illegal word is ignored while FAULTED is
1 and raises `IllegalCommand` with the whole word otherwise (R168, R169, R171). The commands themselves but SRST are
ignored while FAULTED is 1 (`runCommand`). -/
def issueCommand (w : Word64) (s : State) : Host.Outcome State Fault Refusal :=
  match decode w with
  | .ok i => exec i s
  | .error _ =>
    if s.status.faulted then .next s
    else .next (s.raise { cause := .illegalCommand, info := w })

/-- A host write of a register number (R30, R43, R151): CMD issues a command, an `RW` register is written, a write to an
`RO` register or to a reserved number is ignored. -/
def hostWrite (n : Nat) (v : Word64) (s : State) : Host.Outcome State Fault Refusal :=
  match regOfNumber n with
  | some .cmd => issueCommand v s
  | some (.rw r) => .next (s.writeRW r v)
  | some (.ro _) => .next s
  | none => .next s

/-- Serve one host access. A memory access that is not inside `MEM`, one of 0 bytes at an address above `MEM_SIZE` included,
stops the model (R50). DESIGN CHOICE (log 9), safe. -/
def serve (a : HostAccess) (s : State) : Host.Outcome State Fault Refusal :=
  match a with
  | .wr n v => hostWrite n v s
  | .rd n => .next (s.reply (.register (s.readNumber n)))
  | .memStore addr bs =>
    if (HostAccess.memStore addr bs).wellFormed s.cfg then .next { s with mem := s.mem.writeBytes addr bs }
    else .fault (.hostAddressOutsideMem addr bs.length)
  | .memLoad addr n =>
    if (HostAccess.memLoad addr n).wellFormed s.cfg then .next (s.reply (.bytes (s.mem.readBytes addr n)))
    else .fault (.hostAddressOutsideMem addr n)
  | .hardReset => .next s.resetBlock

end Sys2Proof.Machine
end

