-- ==== Sys2Proof/Machine/Step.lean ====
section
/-! DEFINITION. One step: the block serves the oldest host access that waits, to completion (10_state.md R26;
30_encoding.md R70; 20_memory.md R63). The block fetches no instructions: the access IS the fetch. -/

namespace Sys2Proof.Machine

/-- One step. With no access waiting the block waits and nothing is lost (60_exceptions.md R179; log 1). -/
def step (s : State) : Host.Outcome State Fault Refusal :=
  match s.pending with
  | [] => .next s
  | a :: rest => serve a { s with pending := rest }

/-- The machine with a write of the command word `w` to CMD as the very next host access (log 2). -/
def State.withFetchWord (s : State) (nbits w : Nat) : State :=
  { s with pending := .wr 0x00 (tableWord nbits w) :: s.pending }

end Sys2Proof.Machine
end

