-- ==== Sys2Proof/Safety.lean ====
section
/-! DEFINITION. The terms claims about runs are stated in: the invariant of the machine, and runs of several commands. -/

namespace Sys2Proof.Machine

/-- FCAUSE and FINFO are 0 while FAULTED is 0, and FCAUSE is one of the codes 1 to 6 while it is 1 (60_exceptions.md
R161). -/
def State.FaultLatchConsistent (s : State) : Prop :=
  (s.status.faulted = false → s.fcause = 0 ∧ s.finfo = 0) ∧
  (s.status.faulted = true → 1 ≤ s.fcause.toNat ∧ s.fcause.toNat ≤ 6)

/-- An `RW` register that was not written since reset reads as 0 (10_state.md R42). -/
def State.UnwrittenReadZero (s : State) : Prop := ∀ r, s.wv r = false → s.regs.read r = 0

/-- The cipher half: before a CINIT, `X`, `KS` and DOUT are the reset values and the cursor is 64 (R20, R45). After one,
`X` is a seed with its block counter advanced by some number of blocks (R28, R110), `KS` is the block generated last
wherever the cursor points into it (R23), and the cursor is in 1 to 64 (R115). -/
def State.CipherConsistent (s : State) : Prop :=
  (s.status.seeded = false →
    s.cipher.x = Vector.replicate 16 0 ∧ s.cipher.ks = Vector.replicate 64 0 ∧ s.cipher.cur = 64 ∧ s.dout = 0) ∧
  (s.status.seeded = true →
    (∀ r ∈ cinitRegs, s.wv r = true) ∧ 1 ≤ s.cipher.cur.val ∧
    ∃ key len n, s.cipher.x = seedAt s.cfg.pos key len n ∧
      (s.cipher.cur = 64 ∨ ∃ m, n = m + 1 ∧ s.cipher.ks = blockBytes (seedAt s.cfg.pos key len m)))

/-- The region-header half: before an RDCRH, CRH_MAX and CRH_CSZ are 0 and DCOK is clear; after one, the payload registers
were written; DCOK needs RETLEN written (10_state.md R32, R38; 43_region_header.md R125, R128). -/
def State.RegionConsistent (s : State) : Prop :=
  (s.status.crhv = false → s.crh = { max := 0, csz := 0 } ∧ s.status.dcok = false) ∧
  (s.status.crhv = true → s.wv .payBase = true ∧ s.wv .payLen = true) ∧
  (s.status.dcok = true → s.wv .retLen = true)

/-- The archive half (10_state.md R32, R40; 44_archive_reader.md R135 to R139): ARCOK and NOTARC are never both 1; RIDX
never exceeds AH_COUNT; RPTR is past the header and the records yielded; RECV means that the FR registers describe the
record that ends at RPTR; END means that the walk is finished. -/
def State.WalkConsistent (s : State) : Prop :=
  (s.status.arcok && s.status.notarc) = false ∧
  s.ridx.toNat ≤ s.ah.count.toNat ∧
  ((s.status.arcok || s.status.notarc) = true →
    s.wv .magic = true ∧ s.wv .payBase = true ∧ s.wv .payLen = true ∧ 16 + 16 * s.ridx.toNat ≤ s.rptr.toNat) ∧
  ((s.status.arcok || s.status.notarc) = false →
    s.ah = { magic := 0, rsvd := 0, count := 0, doff := 0 } ∧ s.rptr = 0 ∧
    s.status.recv = false ∧ s.status.ended = false) ∧
  (s.status.notarc = true → s.ridx = 0 ∧ s.rptr = 16 ∧ s.status.recv = false) ∧
  (s.status.recv = true →
    s.status.ended = false ∧ 1 ≤ s.ridx.toNat ∧
    s.rptr.toNat = s.fr.namep.toNat + s.fr.nlen.toNat ∧
    s.fr.datap.toNat = s.ah.doff.toNat + s.fr.off.toNat) ∧
  (s.status.ended = true → s.status.notarc = true ∨ s.ridx = s.ah.count)

/-- The invariant of the machine: it holds at reset and every step keeps it. -/
structure State.Inv (s : State) : Prop where
  /-- `MEM_SIZE` is at most 2^64 (R9). -/
  cfg_wf : s.cfg.wellFormed = true
  /-- `MEM` is in canonical form and lists no byte outside it (R50). -/
  mem_wf : s.mem.wf s.cfg.memSize = true
  faultLatch : s.FaultLatchConsistent
  unwritten : s.UnwrittenReadZero
  cipher : s.CipherConsistent
  region : s.RegionConsistent
  walk : s.WalkConsistent

/-- The state a fault leaves (60_exceptions.md R170), by the code and the information word: FCAUSE, FINFO and FAULTED written
and everything else as before. -/
def State.latched (s : State) (code : BitVec 8) (info : Word64) : State :=
  { s with fcause := code, finfo := info, status := { s.status with faulted := true } }

/-- Every register of the list was written since reset (10_state.md R42). -/
def State.allWritten (s : State) (rs : List RWReg) : Prop := ∀ r ∈ rs, s.wv r = true

/-- The first register of the list, in its order, that was not written since reset (60_exceptions.md R167). -/
def State.firstUnwritten (s : State) (rs : List RWReg) : Option RWReg := rs.find? (fun r => s.wv r == false)

/-- The bytes of `MEM` at which two states may differ: none outside `n` bytes from `base` up. -/
def State.sameOutside (s t : State) (base n : Nat) : Prop :=
  ∀ a, ¬(base ≤ a ∧ a < base + n) → t.mem.readByte a = s.mem.readByte a

/-- The second action after the first, where the first gives a next state. -/
def andThen (o : Host.Outcome State Fault Refusal) (f : State → Host.Outcome State Fault Refusal) :
    Host.Outcome State Fault Refusal :=
  match o with
  | .next t => f t
  | .fault r => .fault r
  | .refused r => .refused r

/-- Commands issued one after the other. -/
def execAll : List Instr → State → Host.Outcome State Fault Refusal
  | [], s => .next s
  | i :: is, s => andThen (exec i s) (execAll is)

/-- CAPPLY over consecutive pieces in ascending order, the first at BUF_BASE: each piece sets BUF_CNT, runs CAPPLY and moves
BUF_BASE past the piece (42_xor_engine.md R119). -/
def capplyPieces : List Word64 → State → Host.Outcome State Fault Refusal
  | [], s => .next s
  | n :: ns, s =>
    andThen (exec .capply { s with regs := { s.regs with bufCnt := n } })
      (fun t => capplyPieces ns { t with regs := { t.regs with bufBase := t.regs.bufBase + n } })

/-- CXORB fed the bytes of a list in order: the bytes read from DOUT, and the state after them
(42_xor_engine.md R119). -/
def cxorbFeed : List Byte → State → List Byte × Host.Outcome State Fault Refusal
  | [], s => ([], .next s)
  | b :: bs, s =>
    match exec .cxorb { s with regs := { s.regs with din := b } } with
    | .next t => (t.dout :: (cxorbFeed bs t).1, (cxorbFeed bs t).2)
    | .fault r => ([], .fault r)
    | .refused r => ([], .refused r)

end Sys2Proof.Machine
end

