-- ==== Sys2Proof/Certificates/Slice0/Obligations.lean ====
section
/-! DEFINITION. The statements for the provers, one `def Obligations.<Name> : Prop` each. -/

open Sys2Proof Sys2Proof.Machine

/-! Encoding and decoding (30_encoding.md). -/

/-- R72: each of the eight words decodes to its command and to no other, and every other word decodes to illegal. -/
def Obligations.DecodeSelectsExactlyTheMatchWord : Prop :=
  ∀ w : Word64,
    (decode w = .ok .cinit ↔ w = 0x01) ∧ (decode w = .ok .cxorb ↔ w = 0x02) ∧
    (decode w = .ok .capply ↔ w = 0x03) ∧ (decode w = .ok .rdcrh ↔ w = 0x10) ∧
    (decode w = .ok .dchk ↔ w = 0x11) ∧ (decode w = .ok .ahdr ↔ w = 0x20) ∧
    (decode w = .ok .anext ↔ w = 0x21) ∧ (decode w = .ok .srst ↔ w = 0xFF) ∧
    (w ∉ ([0x01, 0x02, 0x03, 0x10, 0x11, 0x20, 0x21, 0xFF] : List Word64) → ∃ why, decode w = .error why)

/-- Decoding and encoding agree on every 64-bit word and every command (from R70 to R73). -/
def Obligations.DecodeAndEncodeAgree : Prop :=
  ∀ (i : Instr) (w : Word64), i.wellFormed = true → (decode w = .ok i ↔ w = encode i)

/-- The decoder accepts exactly the words whose two fields are well formed (from R70, R73). -/
def Obligations.DecodeAcceptsExactlyTheWellFormedWords : Prop :=
  ∀ w : Word64, (∃ i, decode w = .ok i) ↔ (CommandWord.ofWord w).wellFormed = true

/-- A few words of R71 and R73, written out. -/
def Obligations.SampleWordsDecode : Prop :=
  decode 0x0000000000000001 = .ok .cinit ∧ decode 0x0000000000000003 = .ok .capply ∧
  decode 0x0000000000000011 = .ok .dchk ∧ decode 0x0000000000000021 = .ok .anext ∧
  decode 0x00000000000000FF = .ok .srst ∧ decode 0x0000000000000004 = .error (.reservedOpcode 0x04) ∧
  decode 0x0000000000000101 = .error .nonzeroUpper

/-! One step: serving a host access (10_state.md, 30_encoding.md, 45_system_ops.md, 60_exceptions.md). -/

/-- From R70: a write of a legal word to CMD runs the command it decodes to, on the state with that access served and
everything else as it was. -/
def Obligations.StepRunsTheDecodedCommand : Prop :=
  ∀ (s : State) (w : Word64) (rest : List HostAccess) (i : Instr),
    s.pending = .wr 0x00 w :: rest → decode w = .ok i → step s = exec i { s with pending := rest }

/-- From R168 and R170: a write to CMD of a word that is not one of the eight of R72, while FAULTED is 0, raises
`IllegalCommand`, FINFO the word. That the access waits in a list and is taken off it is the model's (log 1). -/
def Obligations.IllegalWordRaisesIllegalCommand : Prop :=
  ∀ (s : State) (w : Word64) (rest : List HostAccess),
    s.pending = .wr 0x00 w :: rest → s.status.faulted = false →
    w ∉ ([0x01, 0x02, 0x03, 0x10, 0x11, 0x20, 0x21, 0xFF] : List Word64) →
    step s = .next (({ s with pending := rest } : State).latched 6 w)

/-- From R171: while FAULTED is 1 a write to CMD of any word but 0xFF changes nothing, register reads work, writes to `RW`
registers work, and the host may read `MEM`. How an access waits and is answered is the model's (log 1, log 3). -/
def Obligations.FaultedBlockServesOnlyRegisters : Prop :=
  ∀ (s : State) (rest : List HostAccess), s.status.faulted = true →
    (∀ w, s.pending = .wr 0x00 w :: rest → w ≠ 0xFF → step s = .next { s with pending := rest }) ∧
    (∀ n, s.pending = .rd n :: rest →
      step s = .next { s with pending := rest, replies := s.replies ++ [.register (s.readNumber n)] }) ∧
    (∀ r v, s.pending = .wr (rwNumber r) v :: rest →
      ∃ t, step s = .next t ∧ t.wv r = true ∧ t.regs = s.regs.write r v ∧
        t.status = s.status ∧ t.fcause = s.fcause ∧ t.finfo = s.finfo ∧ t.mem = s.mem ∧ t.cipher = s.cipher) ∧
    (∀ a n, s.pending = .memLoad a n :: rest → a + n ≤ s.cfg.memSize →
      step s = .next { s with pending := rest, replies := s.replies ++ [.bytes (s.mem.readBytes a n)] })

/-- From R151: a write to an `RW` register stores the truncated value and sets the written-valid bit, in every state; a
write to CMD issues a command; other writes do nothing; a read returns the register's value and changes nothing of the
block. Neither can fault. From R31 and R42, register by register: the field a write stores into and the bit of WVALID it
sets. How an access waits and is answered is the model's (log 1, log 3). -/
def Obligations.RegisterAccessOperations : Prop :=
  ∀ (s : State) (rest : List HostAccess),
    (∀ r v, s.pending = .wr (rwNumber r) v :: rest →
      ∃ t, step s = .next t ∧
        t = { s with pending := rest, regs := t.regs, wvalid := t.wvalid } ∧
        (∀ r', t.regs.read r' = if r' = r then BitVec.ofNat 64 (v.toNat % 2 ^ rwWidth r) else s.regs.read r') ∧
        (∀ r', t.wv r' = (s.wv r' || decide (r' = r)))) ∧
    (∀ w, s.pending = .wr 0x00 w :: rest → step s = issueCommand w { s with pending := rest }) ∧
    (∀ n v, s.pending = .wr n v :: rest → n ≠ 0x00 → (∀ r, n ≠ rwNumber r) →
      step s = .next { s with pending := rest }) ∧
    (∀ n, s.pending = .rd n :: rest →
      step s = .next { s with pending := rest, replies := s.replies ++ [.register (s.readNumber n)] }) ∧
    ∀ v : Word64,
      let stored := fun (h : HostRegs) (wv : BitVec 16) =>
        ({ s with pending := rest, regs := h, wvalid := s.wvalid ||| wv } : State)
      (s.pending = .wr 0x08 v :: rest → step s = .next (stored { s.regs with len := v } 0x0001)) ∧
      (∀ i : Fin 8, s.pending = .wr (0x10 + i.val) v :: rest →
        step s = .next (stored { s.regs with key := s.regs.key.set i (v.setWidth 32) } (0x0002#16 <<< i.val))) ∧
      (s.pending = .wr 0x18 v :: rest → step s = .next (stored { s.regs with bufBase := v } 0x0200)) ∧
      (s.pending = .wr 0x19 v :: rest → step s = .next (stored { s.regs with bufCnt := v } 0x0400)) ∧
      (s.pending = .wr 0x1A v :: rest → step s = .next (stored { s.regs with din := v.setWidth 8 } 0x0800)) ∧
      (s.pending = .wr 0x40 v :: rest → step s = .next (stored { s.regs with magic := v.setWidth 32 } 0x1000)) ∧
      (s.pending = .wr 0x41 v :: rest → step s = .next (stored { s.regs with payBase := v } 0x2000)) ∧
      (s.pending = .wr 0x42 v :: rest → step s = .next (stored { s.regs with payLen := v } 0x4000)) ∧
      (s.pending = .wr 0x43 v :: rest → step s = .next (stored { s.regs with retLen := v } 0x8000))

/-- From R30 and R31: a host read returns the register's value within the register's width, and that value is the state
element that the map names, number by number (`Xi`, `KSWi`, CUR and DOUT are in the statement CipherViewsShowTheState,
STATUS in StatusReadsItsFlags); CMD and every number the map does not list read as 0. From R31 and R42: WVALID shows
each written-valid bit at the index of the map. -/
def Obligations.ReadsAreZeroExtended : Prop :=
  ∀ s : State,
    (∀ r, s.readNumber (rwNumber r) = s.regs.read r ∧ (s.readNumber (rwNumber r)).toNat < 2 ^ rwWidth r) ∧
    (∀ r, s.readNumber (roNumber r) = s.readRO r ∧ (s.readNumber (roNumber r)).toNat < 2 ^ roWidth r) ∧
    s.readNumber 0x00 = 0 ∧
    (∀ n, (∀ r, n ≠ rwNumber r) → (∀ r, n ≠ roNumber r) → s.readNumber n = 0) ∧
    (s.readNumber 0x02).toNat = s.fcause.toNat ∧ s.readNumber 0x03 = s.finfo ∧
    (s.readNumber 0x04).toNat = s.wvalid.toNat ∧ s.readNumber 0x08 = s.regs.len ∧
    (∀ i : Fin 8, (s.readNumber (0x10 + i.val)).toNat = s.regs.key[i].toNat) ∧
    s.readNumber 0x18 = s.regs.bufBase ∧ s.readNumber 0x19 = s.regs.bufCnt ∧
    (s.readNumber 0x1A).toNat = s.regs.din.toNat ∧ (s.readNumber 0x40).toNat = s.regs.magic.toNat ∧
    s.readNumber 0x41 = s.regs.payBase ∧ s.readNumber 0x42 = s.regs.payLen ∧ s.readNumber 0x43 = s.regs.retLen ∧
    (s.readNumber 0x48).toNat = s.crh.max.toNat ∧ (s.readNumber 0x49).toNat = s.crh.csz.toNat ∧
    (s.readNumber 0x50).toNat = s.ah.magic.toNat ∧ (s.readNumber 0x51).toNat = s.ah.rsvd.toNat ∧
    (s.readNumber 0x52).toNat = s.ah.count.toNat ∧ (s.readNumber 0x53).toNat = s.ah.doff.toNat ∧
    s.readNumber 0x54 = s.rptr ∧ (s.readNumber 0x55).toNat = s.ridx.toNat ∧
    (s.readNumber 0x58).toNat = s.fr.unk.toNat ∧ (s.readNumber 0x59).toNat = s.fr.nlen.toNat ∧
    (s.readNumber 0x5A).toNat = s.fr.off.toNat ∧ (s.readNumber 0x5B).toNat = s.fr.size.toNat ∧
    s.readNumber 0x5C = s.fr.namep ∧ s.readNumber 0x5D = s.fr.datap ∧
    (let shown := (s.readNumber 0x04).getLsbD;
      shown 0 = s.wv .len ∧ (∀ i : Fin 8, shown (1 + i.val) = s.wv (.key i)) ∧ shown 9 = s.wv .bufBase ∧
      shown 10 = s.wv .bufCnt ∧ shown 11 = s.wv .din ∧ shown 12 = s.wv .magic ∧ shown 13 = s.wv .payBase ∧
      shown 14 = s.wv .payLen ∧ shown 15 = s.wv .retLen ∧ ∀ i, 16 ≤ i → shown i = false)

/-- From R31: the numbers of the map, and the reserved numbers. -/
def Obligations.RegisterMapNumbers : Prop :=
  regOfNumber 0x00 = some .cmd ∧ regOfNumber 0x01 = some (.ro .status) ∧ regOfNumber 0x02 = some (.ro .fcause) ∧
  regOfNumber 0x03 = some (.ro .finfo) ∧ regOfNumber 0x04 = some (.ro .wvalid) ∧ regOfNumber 0x08 = some (.rw .len) ∧
  (∀ i : Fin 8, regOfNumber (0x10 + i.val) = some (.rw (.key i))) ∧
  regOfNumber 0x18 = some (.rw .bufBase) ∧ regOfNumber 0x19 = some (.rw .bufCnt) ∧
  regOfNumber 0x1A = some (.rw .din) ∧ regOfNumber 0x1B = some (.ro .dout) ∧ regOfNumber 0x1C = some (.ro .cur) ∧
  (∀ i : Fin 16, regOfNumber (0x20 + i.val) = some (.ro (.x i))) ∧
  (∀ i : Fin 16, regOfNumber (0x30 + i.val) = some (.ro (.ksw i))) ∧
  regOfNumber 0x40 = some (.rw .magic) ∧ regOfNumber 0x41 = some (.rw .payBase) ∧
  regOfNumber 0x42 = some (.rw .payLen) ∧ regOfNumber 0x43 = some (.rw .retLen) ∧
  regOfNumber 0x48 = some (.ro .crhMax) ∧ regOfNumber 0x49 = some (.ro .crhCsz) ∧
  regOfNumber 0x50 = some (.ro .ahMagic) ∧ regOfNumber 0x51 = some (.ro .ahRsvd) ∧
  regOfNumber 0x52 = some (.ro .ahCount) ∧ regOfNumber 0x53 = some (.ro .ahDoff) ∧
  regOfNumber 0x54 = some (.ro .rptr) ∧ regOfNumber 0x55 = some (.ro .ridx) ∧
  regOfNumber 0x58 = some (.ro .frUnk) ∧ regOfNumber 0x59 = some (.ro .frNlen) ∧
  regOfNumber 0x5A = some (.ro .frOff) ∧ regOfNumber 0x5B = some (.ro .frSize) ∧
  regOfNumber 0x5C = some (.ro .frNamep) ∧ regOfNumber 0x5D = some (.ro .frDatap) ∧
  (∀ n, (0x05 ≤ n ∧ n ≤ 0x07) ∨ (0x09 ≤ n ∧ n ≤ 0x0F) ∨ (0x1D ≤ n ∧ n ≤ 0x1F) ∨ (0x44 ≤ n ∧ n ≤ 0x47) ∨
    (0x4A ≤ n ∧ n ≤ 0x4F) ∨ n = 0x56 ∨ n = 0x57 ∨ 0x5E ≤ n → regOfNumber n = none)

/-- From R32: STATUS as the host reads it holds the eight flags in bits 0 to 7, and every higher bit reads as 0. -/
def Obligations.StatusReadsItsFlags : Prop :=
  ∀ s : State,
    (s.readNumber 0x01).getLsbD 0 = s.status.seeded ∧ (s.readNumber 0x01).getLsbD 1 = s.status.faulted ∧
    (s.readNumber 0x01).getLsbD 2 = s.status.arcok ∧ (s.readNumber 0x01).getLsbD 3 = s.status.notarc ∧
    (s.readNumber 0x01).getLsbD 4 = s.status.recv ∧ (s.readNumber 0x01).getLsbD 5 = s.status.ended ∧
    (s.readNumber 0x01).getLsbD 6 = s.status.crhv ∧ (s.readNumber 0x01).getLsbD 7 = s.status.dcok ∧
    ∀ i, 8 ≤ i → (s.readNumber 0x01).getLsbD i = false

/-- From R23 and R35: the read-only views of the cipher state. `KSWi` is the little-endian word of `KS[4i..4i+3]`, `Xi` is
`X[i]`, CUR is the cursor. -/
def Obligations.CipherViewsShowTheState : Prop :=
  ∀ (s : State) (i : Fin 16),
    (s.readNumber (0x30 + i.val)).toNat =
      s.cipher.ks[4 * i.val].toNat + 2 ^ 8 * s.cipher.ks[4 * i.val + 1].toNat
        + 2 ^ 16 * s.cipher.ks[4 * i.val + 2].toNat + 2 ^ 24 * s.cipher.ks[4 * i.val + 3].toNat ∧
    (s.readNumber (0x20 + i.val)).toNat = s.cipher.x[i].toNat ∧
    (s.readNumber 0x1C).toNat = s.cipher.cur.val ∧
    (s.readNumber 0x1B).toNat = s.dout.toNat

/-- From R44 and R50: the host's own store puts its bytes into `MEM` and changes no other byte. An access that goes past
the end of `MEM`, one of 0 bytes at an address above `MEM_SIZE` included, ends the run: the model's choice (log 9). How
an access waits and is answered is the model's too (log 1, log 3). -/
def Obligations.HostMemoryAccess : Prop :=
  ∀ (s : State) (rest : List HostAccess) (addr : Nat), s.mem.wf s.cfg.memSize = true →
    (∀ bs : List Byte, s.pending = .memStore addr bs :: rest →
      if addr + bs.length ≤ s.cfg.memSize then
        ∃ m, step s = .next { s with pending := rest, mem := m } ∧
          ∀ a, m.readByte a = if addr ≤ a ∧ a < addr + bs.length then bs.getD (a - addr) 0 else s.mem.readByte a
      else step s = .fault (.hostAddressOutsideMem addr bs.length)) ∧
    (∀ n, s.pending = .memLoad addr n :: rest →
      if addr + n ≤ s.cfg.memSize then
        step s = .next { s with pending := rest, replies := s.replies ++ [.bytes (s.mem.readBytes addr n)] }
      else step s = .fault (.hostAddressOutsideMem addr n))

/-- From R179, the model's choice (log 1): with no access waiting the block waits and nothing is lost. -/
def Obligations.IdleBlockWaits : Prop := ∀ s : State, s.pending = [] → step s = .next s

/-- From R170 and R202: every command answers a next state, and a step fails only on a host access that goes past
the end of `MEM` (the model's choice, log 9). -/
def Obligations.OnlyHostAddressesOutsideMemStopTheRun : Prop :=
  (∀ (i : Instr) (s : State), ∃ t, exec i s = .next t) ∧
  ∀ s : State, (∃ t, step s = .next t) ∨
    ∃ addr n, step s = .fault (.hostAddressOutsideMem addr n) ∧ s.cfg.memSize < addr + n ∧
      ((∃ bs rest, s.pending = .memStore addr bs :: rest ∧ bs.length = n) ∨
        ∃ rest, s.pending = .memLoad addr n :: rest)

/-! Reset (10_state.md R45, 45_system_ops.md R150, 70_reset_and_hazards.md R185). -/

/-- From R45, by SRST (R150): every state element takes the value of the table and `MEM` is not touched, in every state,
the faulted one included. That the configuration and the lists of waiting accesses and answers are kept is the model's
choice (log 13, with log 1, log 3 and log 4). -/
def Obligations.ResetGivesEveryResetValue : Prop :=
  ∀ s : State, ∃ r : State,
    r.cipher = { x := #v[0, 0, 0, 0, 0, 0, 0, 0, 0, 0, 0, 0, 0, 0, 0, 0], ks := Vector.replicate 64 0, cur := 64 } ∧
    r.regs = { len := 0, key := #v[0, 0, 0, 0, 0, 0, 0, 0], bufBase := 0, bufCnt := 0, din := 0, magic := 0,
               payBase := 0, payLen := 0, retLen := 0 } ∧
    r.wvalid = 0 ∧ r.dout = 0 ∧
    r.status = { seeded := false, faulted := false, arcok := false, notarc := false, recv := false, ended := false,
                 crhv := false, dcok := false } ∧
    r.fcause = 0 ∧ r.finfo = 0 ∧ r.crh = { max := 0, csz := 0 } ∧
    r.ah = { magic := 0, rsvd := 0, count := 0, doff := 0 } ∧ r.rptr = 0 ∧ r.ridx = 0 ∧
    r.fr = { unk := 0, nlen := 0, off := 0, size := 0, namep := 0, datap := 0 } ∧
    r.mem = s.mem ∧ r.cfg = s.cfg ∧ r.pending = s.pending ∧ r.replies = s.replies ∧
    exec .srst s = .next r

/-- From R185 and R172: the reset input has the effect of SRST. That it arrives as one of the host's accesses is the
model's choice (log 13). -/
def Obligations.ResetInputActsAsSrst : Prop :=
  ∀ (s : State) (rest : List HostAccess), s.pending = .hardReset :: rest →
    ∃ t, step s = .next t ∧ exec .srst { s with pending := rest } = .next t ∧ t.status.faulted = false ∧ t.mem = s.mem

/-- From R45: the machine right after reset reads as R45 says through its register numbers. The model's choices beside it:
the configuration (log 5, log 6, log 7), the empty `MEM` listing (log 8), no host access waiting or answered (log 2,
log 3). -/
def Obligations.ResetStateReadsAsTheTable : Prop :=
  State.reset.readNumber 0x01 = 0 ∧ State.reset.readNumber 0x02 = 0 ∧ State.reset.readNumber 0x03 = 0 ∧
  State.reset.readNumber 0x04 = 0 ∧ State.reset.readNumber 0x1C = 64 ∧
  (∀ n, n ≠ 0x1C → State.reset.readNumber n = 0) ∧
  State.reset.cfg = { memSize := 0x1000, pos := .rows, fieldLE := true } ∧
  State.reset.mem = [] ∧ State.reset.pending = [] ∧ State.reset.replies = []

/-! CINIT (40_cipher_init.md). -/

/-- R91 and R93: CINIT with LEN and the eight KEY registers written, under the spec's layout: the placement by rows and
the control words. The cursor is 64 (from R94), the constants are those of R92, and nothing but `X`, CUR and SEEDED
changes: `KS` and DOUT keep their values (from R90). -/
def Obligations.CinitSeedsTheState : Prop :=
  ∀ s : State, s.status.faulted = false →
    s.allWritten [.len, .key 0, .key 1, .key 2, .key 3, .key 4, .key 5, .key 6, .key 7] →
    s.cfg.pos = .rows →
    exec .cinit s = .next { s with
      cipher :=
        { x := #v[0x61707865, 0x3320646E, 0x79622D32, 0x6B206574,
                  s.regs.key[0], s.regs.key[1], s.regs.key[2], s.regs.key[3],
                  s.regs.key[4], s.regs.key[5], s.regs.key[6], s.regs.key[7],
                  0, BitVec.ofNat 32 s.regs.len.toNat, BitVec.ofNat 32 (s.regs.len.toNat + 1),
                  BitVec.ofNat 32 (0xFFFFFFFF - s.regs.len.toNat % 2 ^ 32)]
          ks := s.cipher.ks
          cur := 64 }
      status := { s.status with seeded := true } }

/-- From 92_eei_decisions.md D2: CINIT under the layout set aside. -/
def Obligations.CinitSeedsTheSetAsideLayout : Prop :=
  ∀ s : State, s.status.faulted = false →
    s.allWritten [.len, .key 0, .key 1, .key 2, .key 3, .key 4, .key 5, .key 6, .key 7] →
    s.cfg.pos = .salsaDiagonal →
    exec .cinit s = .next { s with
      cipher :=
        { x := #v[0x61707865, s.regs.key[0], s.regs.key[1], s.regs.key[2], s.regs.key[3], 0x3320646E,
                  0, BitVec.ofNat 32 s.regs.len.toNat, BitVec.ofNat 32 (s.regs.len.toNat + 1),
                  BitVec.ofNat 32 (0xFFFFFFFF - s.regs.len.toNat % 2 ^ 32),
                  0x79622D32, s.regs.key[4], s.regs.key[5], s.regs.key[6], s.regs.key[7], 0x6B206574]
          ks := s.cipher.ks
          cur := 64 }
      status := { s.status with seeded := true } }

/-- R95: two lengths that agree modulo 2^32 seed the same `X` and give the same keystream. -/
def Obligations.LengthsAgreeingModulo32BitsSeedAlike : Prop :=
  ∀ (s : State) (len' : Word64), s.status.faulted = false →
    s.allWritten [.len, .key 0, .key 1, .key 2, .key 3, .key 4, .key 5, .key 6, .key 7] →
    s.regs.len.toNat % 2 ^ 32 = len'.toNat % 2 ^ 32 →
    ∃ t t', exec .cinit s = .next t ∧ exec .cinit { s with regs := { s.regs with len := len' } } = .next t' ∧
      t.cipher = t'.cipher ∧
      ∀ bs, t.cipher.xsteps t.cfg.pos bs = t'.cipher.xsteps t'.cfg.pos bs

/-- From R97, and from R96, which the spec marks as derived from R90: `X` and CUR after CINIT depend on KEY and LEN
only, not on the old `X`, `KS`, CUR, flags, other registers or memory. -/
def Obligations.CinitDependsOnKeyAndLenOnly : Prop :=
  ∀ s s' t t' : State, s.status.faulted = false → s'.status.faulted = false →
    s.allWritten [.len, .key 0, .key 1, .key 2, .key 3, .key 4, .key 5, .key 6, .key 7] →
    s'.allWritten [.len, .key 0, .key 1, .key 2, .key 3, .key 4, .key 5, .key 6, .key 7] →
    s.cfg.pos = s'.cfg.pos → s.regs.key = s'.regs.key → s.regs.len = s'.regs.len →
    exec .cinit s = .next t → exec .cinit s' = .next t' →
    t.cipher.x = t'.cipher.x ∧ t.cipher.cur = 64 ∧ t'.cipher.cur = 64

/-! Keystream block generation (41_keystream_block.md). -/

/-- From R101: the twelve steps of the quarter-round with `rotl32` as R13 gives it, and the rule's two examples. That it
is a bijection on four words is the spec's own inference from the twelve steps. -/
def Obligations.QuarterRoundIsTheTwelveSteps : Prop :=
  let rotl : Word → Nat → Word :=
    fun v n => BitVec.ofNat 32 (v.toNat * 2 ^ n % 2 ^ 32 + v.toNat / 2 ^ (32 - n))
  (∀ a b c d : Word, ∃ a1 d1 c1 b1 : Word,
    a1 = a + b ∧ d1 = rotl (d ^^^ a1) 16 ∧ c1 = c + d1 ∧ b1 = rotl (b ^^^ c1) 12 ∧
    ∃ a2 d2 c2 b2 : Word,
      a2 = a1 + b1 ∧ d2 = rotl (d1 ^^^ a2) 8 ∧ c2 = c1 + d2 ∧ b2 = rotl (b1 ^^^ c2) 7 ∧
      quarterRound a b c d = (a2, b2, c2, d2)) ∧
  Function.Bijective (fun q : Word × Word × Word × Word => quarterRound q.1 q.2.1 q.2.2.1 q.2.2.2) ∧
  quarterRound 0x11111111 0x01020304 0x9B8D6F43 0x01234567 = (0xEA2A92F4, 0xCB1CF8CE, 0x4581472E, 0x5881C4BB) ∧
  quarterRound 0 0 0 0 = (0, 0, 0, 0)

/-- R102, R103: the column round applies `QR` to each column of the row-major matrix and the diagonal round to each
diagonal. -/
def Obligations.RoundsApplyQuarterRounds : Prop :=
  ∀ (w : Words) (j : Fin 4),
    ((columnRound w)[j.val], (columnRound w)[4 + j.val], (columnRound w)[8 + j.val], (columnRound w)[12 + j.val])
      = quarterRound w[j.val] w[4 + j.val] w[8 + j.val] w[12 + j.val] ∧
    ((diagonalRound w)[j.val], (diagonalRound w)[4 + (j.val + 1) % 4], (diagonalRound w)[8 + (j.val + 2) % 4],
        (diagonalRound w)[12 + (j.val + 3) % 4])
      = quarterRound w[j.val] w[4 + (j.val + 1) % 4] w[8 + (j.val + 2) % 4] w[12 + (j.val + 3) % 4]

/-- R104, R105, R107, R108, R109, under the spec's layout: KSGEN runs ten double rounds on a copy of `X`, adds the words
`X` had before, serialises little-endian, steps the 64-bit counter `X[13]:X[12]`, and sets the cursor to 0; no other
word of `X` changes. -/
def Obligations.KsgenGeneratesOneBlock : Prop :=
  ∀ c : CipherState,
    let c' := c.ksgen .rows
    let w := (fun v => diagonalRound (columnRound v))^[10] c.x
    (∀ (i : Fin 16) (j : Fin 4),
      c'.ks[4 * i.val + j.val].toNat = (w[i.val] + c.x[i.val]).toNat / 2 ^ (8 * j.val) % 256) ∧
    c'.x[13].toNat * 2 ^ 32 + c'.x[12].toNat = (c.x[13].toNat * 2 ^ 32 + c.x[12].toNat + 1) % 2 ^ 64 ∧
    (∀ i : Fin 16, i ≠ 12 → i ≠ 13 → c'.x[i] = c.x[i]) ∧
    c'.cur = 0

/-- From R110, which the spec marks as derived from R106 and R28: the `n`-th block generated since a CINIT, counting
from 0, is `BLOCK(SEED(n))`, under the spec's layout. -/
def Obligations.NthBlockIsTheBlockOfItsSeed : Prop :=
  ∀ (key : KeyWords) (len : Word64) (c : CipherState) (n : Nat),
    let counter := (len.toNat % 2 ^ 32 * 2 ^ 32 + n) % 2 ^ 64
    let seed : Words := ((seedWords .rows key len).set 12 (BitVec.ofNat 32 (counter % 2 ^ 32))).set 13
      (BitVec.ofNat 32 (counter / 2 ^ 32))
    ((CipherState.ksgen .rows)^[n + 1] (c.seed .rows key len)).ks = blockBytes seed

/-! The XOR engine (42_xor_engine.md). -/

/-- R115: the byte step. -/
def Obligations.ByteStepUsesTheNextKeystreamByte : Prop :=
  ∀ (pos : SeedLayout) (b : Byte) (c : CipherState),
    (∀ h : c.cur.val < 64,
      (c.xstep pos b).1 = b ^^^ c.ks[c.cur.val] ∧ (c.xstep pos b).2.x = c.x ∧ (c.xstep pos b).2.ks = c.ks ∧
      (c.xstep pos b).2.cur.val = c.cur.val + 1) ∧
    (c.cur = 64 →
      (c.xstep pos b).1 = b ^^^ (c.ksgen pos).ks[0] ∧ (c.xstep pos b).2.x = (c.ksgen pos).x ∧
      (c.xstep pos b).2.ks = (c.ksgen pos).ks ∧ (c.xstep pos b).2.cur.val = 1) ∧
    1 ≤ (c.xstep pos b).2.cur.val

/-- R116: CXORB. DOUT and the cipher state are those of the byte step on DIN; nothing else changes, DIN included. The two
faults, in their order. -/
def Obligations.CxorbTransformsDin : Prop :=
  ∀ s : State, s.status.faulted = false →
    (s.status.seeded = false → exec .cxorb s = .next (s.latched 4 0x02)) ∧
    (s.status.seeded = true → s.wv .din = false → exec .cxorb s = .next (s.latched 5 0x1A)) ∧
    (s.status.seeded = true → s.wv .din = true →
      exec .cxorb s = .next { s with
        dout := (s.cipher.xstep s.cfg.pos s.regs.din).1
        cipher := (s.cipher.xstep s.cfg.pos s.regs.din).2 })

/-- From R117 and R68: CAPPLY inside `MEM`. The bytes of the window become the byte step's results, in ascending order;
every byte outside the window, every register and every flag keeps its value. -/
def Obligations.CapplyTransformsTheWindow : Prop :=
  ∀ s : State, s.status.faulted = false → s.status.seeded = true → s.wv .bufBase = true → s.wv .bufCnt = true →
    s.mem.wf s.cfg.memSize = true →
    s.regs.bufBase.toNat + s.regs.bufCnt.toNat ≤ s.cfg.memSize →
    let r := s.cipher.xsteps s.cfg.pos (s.mem.readBytes s.regs.bufBase.toNat s.regs.bufCnt.toNat)
    ∃ m, exec .capply s = .next { s with cipher := r.2, mem := m } ∧
      m.wf s.cfg.memSize = true ∧
      (∀ i, i < s.regs.bufCnt.toNat → m.readByte (s.regs.bufBase.toNat + i) = r.1.getD i 0) ∧
      s.sameOutside { s with mem := m } s.regs.bufBase.toNat s.regs.bufCnt.toNat

/-- From R117 (corner case, D27): CAPPLY with `BUF_CNT = 0` and `BUF_BASE` inside or just past `MEM` changes nothing. -/
def Obligations.CapplyOfNothingChangesNothing : Prop :=
  ∀ s : State, s.status.faulted = false → s.status.seeded = true → s.wv .bufBase = true → s.wv .bufCnt = true →
    s.regs.bufCnt = 0 → s.regs.bufBase.toNat ≤ s.cfg.memSize → exec .capply s = .next s

/-- From R118, which the spec marks as derived from R115 and R110: byte number `i` consumed since a CINIT is XORed with
`BLOCK(SEED(i div 64))[i mod 64]`, whatever the data. -/
def Obligations.KeystreamClosedForm : Prop :=
  ∀ (pos : SeedLayout) (key : KeyWords) (len : Word64) (c : CipherState) (bs : List Byte) (i : Nat),
    i < bs.length →
    ((c.seed pos key len).xsteps pos bs).1.getD i 0 =
      bs.getD i 0 ^^^ (blockBytes (seedAt pos key len (i / 64)))[i % 64]'(Nat.mod_lt i (by decide))

/-- From R122, which the spec marks as derived from R115 and R94: the block counter and the cursor after `n` bytes from
a fresh CINIT, under the spec's layout; 64 bytes use one block, 65 bytes two. -/
def Obligations.BlockBoundary : Prop :=
  ∀ (key : KeyWords) (len : Word64) (c : CipherState) (bs : List Byte),
    let t := ((c.seed .rows key len).xsteps .rows bs).2
    (bs = [] → t.x[12].toNat = 0 ∧ t.cur = 64) ∧
    (1 ≤ bs.length →
      t.x[12].toNat = (bs.length + 63) / 64 % 2 ^ 32 ∧
      t.cur.val = bs.length - 64 * ((bs.length + 63) / 64 - 1)) ∧
    (bs.length = 64 → t.x[12].toNat = 1 ∧ t.cur.val = 64) ∧
    (bs.length = 65 → t.x[12].toNat = 2 ∧ t.cur.val = 1)

/-- From R119, which the spec marks as derived from R118: one CAPPLY over a window and CAPPLY over consecutive pieces of
it in ascending order leave the same bytes and the same `X`, `KS` and CUR. -/
def Obligations.CapplyPiecesEqualOneCapply : Prop :=
  ∀ (s : State) (pieces : List Word64) (total : Word64),
    s.status.faulted = false → s.status.seeded = true → s.wv .bufBase = true → s.wv .bufCnt = true →
    total.toNat = (pieces.map BitVec.toNat).sum →
    s.regs.bufBase.toNat + total.toNat ≤ s.cfg.memSize → s.cfg.memSize ≤ 2 ^ 64 →
    ∃ t t', exec .capply { s with regs := { s.regs with bufCnt := total } } = .next t ∧
      capplyPieces pieces s = .next t' ∧ t'.mem = t.mem ∧ t'.cipher = t.cipher

/-- From R119, which the spec marks as derived from R118: CXORB fed the bytes of a window in order gives the bytes that
CAPPLY leaves in the window, and the same `X`, `KS` and CUR. -/
def Obligations.CxorbBytesEqualOneCapply : Prop :=
  ∀ s : State, s.status.faulted = false → s.status.seeded = true → s.wv .din = true →
    s.wv .bufBase = true → s.wv .bufCnt = true → s.mem.wf s.cfg.memSize = true →
    s.regs.bufBase.toNat + s.regs.bufCnt.toNat ≤ s.cfg.memSize →
    ∃ t t' out, exec .capply s = .next t ∧
      cxorbFeed (s.mem.readBytes s.regs.bufBase.toNat s.regs.bufCnt.toNat) s = (out, .next t') ∧
      out = t.mem.readBytes s.regs.bufBase.toNat s.regs.bufCnt.toNat ∧ t'.cipher = t.cipher

/-- From R120, which the spec marks as derived from R115 and R118: within one keystream block the bytes may be XORed at
once. -/
def Obligations.LanesWithinABlock : Prop :=
  ∀ (pos : SeedLayout) (bs : List Byte) (c : CipherState), c.cur.val + bs.length ≤ 64 → c.cur.val < 64 →
    (c.xsteps pos bs).1 = List.zipWith (fun b k => b ^^^ k) bs (c.ks.toList.drop c.cur.val) ∧
    (c.xsteps pos bs).2.x = c.x ∧ (c.xsteps pos bs).2.ks = c.ks ∧
    (c.xsteps pos bs).2.cur.val = c.cur.val + bs.length

/-- From R121, which the spec marks as derived from R118: CINIT, CAPPLY, CINIT, CAPPLY over the same window with KEY and
LEN unchanged restores every byte. -/
def Obligations.CipherIsAnInvolution : Prop :=
  ∀ s : State, s.status.faulted = false →
    s.allWritten [.len, .key 0, .key 1, .key 2, .key 3, .key 4, .key 5, .key 6, .key 7, .bufBase, .bufCnt] →
    s.mem.wf s.cfg.memSize = true →
    s.regs.bufBase.toNat + s.regs.bufCnt.toNat ≤ s.cfg.memSize →
    ∃ t, execAll [.cinit, .capply, .cinit, .capply] s = .next t ∧ t.mem = s.mem

/-- From R118, which the spec marks as derived: the keystream does not depend on the data. Two runs of CAPPLY that
differ only in the contents of `MEM` end in the same cipher state, and each byte of the window changes by the same
difference in both. -/
def Obligations.KeystreamIgnoresTheData : Prop :=
  ∀ (s : State) (m : Memory) (t t' : State), s.status.faulted = false → s.mem.wf s.cfg.memSize = true →
    m.wf s.cfg.memSize = true →
    exec .capply s = .next t → exec .capply { s with mem := m } = .next t' →
    t.cipher = t'.cipher ∧ t.status = t'.status ∧
    ∀ a, s.mem.readByte a ^^^ t.mem.readByte a = m.readByte a ^^^ t'.mem.readByte a

/-! The region header (43_region_header.md). -/

/-- R56, with the switch at the spec's value: the field at payload offset `o` is the little-endian word of the four
bytes at `PAY_BASE + o`, at any byte address. -/
def Obligations.FieldsAreLittleEndian : Prop :=
  ∀ (s : State) (o : Nat), s.cfg.fieldLE = true →
    (s.payField o).toNat =
      (s.mem.readByte (s.regs.payBase.toNat + o)).toNat
        + 2 ^ 8 * (s.mem.readByte (s.regs.payBase.toNat + o + 1)).toNat
        + 2 ^ 16 * (s.mem.readByte (s.regs.payBase.toNat + o + 2)).toNat
        + 2 ^ 24 * (s.mem.readByte (s.regs.payBase.toNat + o + 3)).toNat

/-- From R125: RDCRH where the header and the compressed slice lie inside an admitted payload. -/
def Obligations.RdcrhReadsTheHeader : Prop :=
  ∀ s : State, s.status.faulted = false → s.wv .payBase = true → s.wv .payLen = true →
    s.regs.payBase.toNat + s.regs.payLen.toNat ≤ s.cfg.memSize →
    8 + (s.payField 4).toNat ≤ s.regs.payLen.toNat →
    exec .rdcrh s = .next { s with
      crh := { max := s.payField 0, csz := s.payField 4 }
      status := { s.status with crhv := true, dcok := false } }

/-- R128: DCHK, its result and its faults in their order. The comparison is on all 64 bits of RETLEN. -/
def Obligations.DchkRequiresTheExactSize : Prop :=
  ∀ s : State, s.status.faulted = false →
    (s.status.crhv = false → exec .dchk s = .next (s.latched 4 0x11)) ∧
    (s.status.crhv = true → s.wv .retLen = false → exec .dchk s = .next (s.latched 5 0x43)) ∧
    (s.status.crhv = true → s.wv .retLen = true → s.regs.retLen.toNat ≠ s.crh.max.toNat →
      exec .dchk s = .next (s.latched 1 s.regs.retLen)) ∧
    (s.status.crhv = true → s.wv .retLen = true → s.regs.retLen.toNat = s.crh.max.toNat →
      exec .dchk s = .next { s with status := { s.status with dcok := true } })

/-! The archive reader (44_archive_reader.md). -/

/-- From R135 and R136: AHDR on an admitted payload of at least 16 bytes. The four fields are loaded on a match and on a
mismatch; a mismatch is the signal NOTARC and no fault. `byte_j(AH_RSVD)` is the byte at header offset `4 + j` (from R39),
whatever FIELD_LE says (log 19). -/
def Obligations.AhdrReadsTheHeader : Prop :=
  ∀ s : State, s.status.faulted = false → s.wv .magic = true → s.wv .payBase = true → s.wv .payLen = true →
    s.regs.payBase.toNat + s.regs.payLen.toNat ≤ s.cfg.memSize → 16 ≤ s.regs.payLen.toNat →
    let byteAt := fun j => (s.mem.readByte (s.regs.payBase.toNat + 4 + j)).toNat
    let rsvd := BitVec.ofNat 32 (byteAt 0 + 2 ^ 8 * byteAt 1 + 2 ^ 16 * byteAt 2 + 2 ^ 24 * byteAt 3)
    (s.payField 0 = s.regs.magic →
      exec .ahdr s = .next { s with
        ah := { magic := s.payField 0, rsvd := rsvd, count := s.payField 8, doff := s.payField 12 }
        rptr := 16
        ridx := 0
        status := { s.status with arcok := true, notarc := false, recv := false, ended := false } }) ∧
    (s.payField 0 ≠ s.regs.magic →
      exec .ahdr s = .next { s with
        ah := { magic := s.payField 0, rsvd := rsvd, count := s.payField 8, doff := s.payField 12 }
        rptr := 16
        ridx := 0
        status := { s.status with arcok := false, notarc := true, recv := false, ended := false } })

/-- From R138 and R139: ANEXT where a record is left and the prefix, the name and the file lie inside an admitted
payload. -/
def Obligations.AnextYieldsTheRecord : Prop :=
  ∀ s : State, s.status.faulted = false → s.status.arcok = true → s.status.notarc = false → s.ridx ≠ s.ah.count →
    s.wv .payBase = true → s.wv .payLen = true →
    s.regs.payBase.toNat + s.regs.payLen.toNat ≤ s.cfg.memSize →
    s.rptr.toNat + 16 + (s.payField (s.rptr.toNat + 4)).toNat ≤ s.regs.payLen.toNat →
    s.ah.doff.toNat + (s.payField (s.rptr.toNat + 8)).toNat + (s.payField (s.rptr.toNat + 12)).toNat
      ≤ s.regs.payLen.toNat →
    ∃ t, exec .anext s = .next t ∧
      t = { s with
        fr := t.fr
        rptr := t.rptr
        ridx := s.ridx + 1
        status := { s.status with recv := true } } ∧
      t.fr.unk = s.payField s.rptr.toNat ∧ t.fr.nlen = s.payField (s.rptr.toNat + 4) ∧
      t.fr.off = s.payField (s.rptr.toNat + 8) ∧ t.fr.size = s.payField (s.rptr.toNat + 12) ∧
      t.fr.namep.toNat = s.rptr.toNat + 16 ∧ t.fr.datap.toNat = s.ah.doff.toNat + t.fr.off.toNat ∧
      t.rptr.toNat = s.rptr.toNat + 16 + t.fr.nlen.toNat

/-- From R138 (D25): where NOTARC is set or RIDX has reached AH_COUNT, ANEXT clears RECV, sets END and does nothing
else. -/
def Obligations.AnextEndsTheWalk : Prop :=
  ∀ s : State, s.status.faulted = false → (s.status.arcok = true ∨ s.status.notarc = true) →
    (s.status.notarc = true ∨ s.ridx = s.ah.count) →
    exec .anext s = .next { s with status := { s.status with recv := false, ended := true } }

/-- From R139, and from R137, which the spec marks as derived: whenever ANEXT moves the walk on, both slices it reports
lie inside the payload and the next record starts where the name ends, all in natural numbers. -/
def Obligations.YieldedSlicesLieInThePayload : Prop :=
  ∀ s t : State, exec .anext s = .next t → t.ridx ≠ s.ridx →
    t.fr.namep.toNat + t.fr.nlen.toNat ≤ t.regs.payLen.toNat ∧
    t.fr.datap.toNat + t.fr.size.toNat ≤ t.regs.payLen.toNat ∧
    t.regs.payBase.toNat + t.regs.payLen.toNat ≤ t.cfg.memSize ∧
    t.fr.namep.toNat = s.rptr.toNat + 16 ∧ t.rptr.toNat = t.fr.namep.toNat + t.fr.nlen.toNat ∧
    t.status.recv = true ∧ t.status.faulted = false

/-- From R141, which the spec marks as derived from R138: from an AHDR that set ARCOK, with `N = AH_COUNT`, as long as
no record fails its checks, the first `N` ANEXT commands set RECV and the next sets END; from an AHDR that set NOTARC
none sets RECV. -/
def Obligations.RecordCountLaw : Prop :=
  (∀ (s t : State) (k : Nat), s.status.faulted = false → s.status.arcok = true → s.status.notarc = false →
    s.status.ended = false → s.ridx = 0 →
    execAll (List.replicate k .anext) s = .next t → t.status.faulted = false →
    t.ridx.toNat = min k s.ah.count.toNat ∧
    (1 ≤ k → (t.status.recv = true ↔ k ≤ s.ah.count.toNat)) ∧
    (t.status.ended = true ↔ s.ah.count.toNat < k)) ∧
  (∀ (s t : State) (k : Nat), s.status.faulted = false → s.status.notarc = true → 1 ≤ k →
    execAll (List.replicate k .anext) s = .next t →
    t.status.recv = false ∧ t.status.ended = true ∧ t.status.faulted = false)

/-- From R136 and R163: a magic mismatch latches no fault, and the ANEXT after it yields nothing and sets END. -/
def Obligations.NotAnArchiveIsASignal : Prop :=
  ∀ s t : State, s.status.faulted = false → exec .ahdr s = .next t → t.status.faulted = false →
    t.ah.magic ≠ t.regs.magic →
    t.status.notarc = true ∧ t.status.arcok = false ∧ t.fcause = s.fcause ∧ t.finfo = s.finfo ∧
    exec .anext t = .next { t with status := { t.status with recv := false, ended := true } }

/-! Faults (60_exceptions.md). -/

/-- R166: the prerequisites, tested before anything else about the command; FINFO is the opcode. CINIT, RDCRH, AHDR and
SRST have no prerequisite. -/
def Obligations.SequenceFaultTable : Prop :=
  ∀ s : State, s.status.faulted = false →
    (s.status.seeded = false →
      exec .cxorb s = .next (s.latched 4 0x02) ∧ exec .capply s = .next (s.latched 4 0x03)) ∧
    (s.status.crhv = false → exec .dchk s = .next (s.latched 4 0x11)) ∧
    (s.status.arcok = false → s.status.notarc = false → exec .anext s = .next (s.latched 4 0x21)) ∧
    (∀ i ∈ [Instr.cinit, Instr.rdcrh, Instr.ahdr], ∀ t, exec i s = .next t → t.status.faulted = true → t.fcause ≠ 4) ∧
    (∃ t, exec .srst s = .next t ∧ t.status.faulted = false) ∧
    (∀ t, s.status.seeded = true → exec .cxorb s = .next t ∨ exec .capply s = .next t →
      t.status.faulted = true → t.fcause ≠ 4) ∧
    (∀ t, s.status.crhv = true → exec .dchk s = .next t → t.status.faulted = true → t.fcause ≠ 4) ∧
    (∀ t, s.status.arcok = true ∨ s.status.notarc = true → exec .anext s = .next t →
      t.status.faulted = true → t.fcause ≠ 4)

/-- R167: each command tests the registers it reads, in the order listed; FINFO is the number of the first that was not
written. It tests only those: with them written, whatever other registers are not, it raises no `UnwrittenRegister`. -/
def Obligations.UnwrittenRegisterTable : Prop :=
  ∀ s : State, s.status.faulted = false →
    (∀ r : RWReg,
      (s.firstUnwritten [.len, .key 0, .key 1, .key 2, .key 3, .key 4, .key 5, .key 6, .key 7] = some r →
        exec .cinit s = .next (s.latched 5 (BitVec.ofNat 64 (rwNumber r)))) ∧
      (s.status.seeded = true → s.firstUnwritten [.din] = some r →
        exec .cxorb s = .next (s.latched 5 (BitVec.ofNat 64 (rwNumber r)))) ∧
      (s.status.seeded = true → s.firstUnwritten [.bufBase, .bufCnt] = some r →
        exec .capply s = .next (s.latched 5 (BitVec.ofNat 64 (rwNumber r)))) ∧
      (s.firstUnwritten [.payBase, .payLen] = some r →
        exec .rdcrh s = .next (s.latched 5 (BitVec.ofNat 64 (rwNumber r)))) ∧
      (s.status.crhv = true → s.firstUnwritten [.retLen] = some r →
        exec .dchk s = .next (s.latched 5 (BitVec.ofNat 64 (rwNumber r)))) ∧
      (s.firstUnwritten [.magic, .payBase, .payLen] = some r →
        exec .ahdr s = .next (s.latched 5 (BitVec.ofNat 64 (rwNumber r)))) ∧
      (s.status.arcok = true → s.status.notarc = false → s.ridx ≠ s.ah.count →
        s.firstUnwritten [.payBase, .payLen] = some r →
        exec .anext s = .next (s.latched 5 (BitVec.ofNat 64 (rwNumber r))))) ∧
    (s.allWritten [.len, .key 0, .key 1, .key 2, .key 3, .key 4, .key 5, .key 6, .key 7] →
      ∃ t, exec .cinit s = .next t ∧ t.status.faulted = false) ∧
    ∀ t : State, t.status.faulted = true →
      (s.allWritten [.din] → exec .cxorb s = .next t → t.fcause ≠ 5) ∧
      (s.allWritten [.bufBase, .bufCnt] → exec .capply s = .next t → t.fcause ≠ 5) ∧
      (s.allWritten [.payBase, .payLen] → exec .rdcrh s = .next t → t.fcause ≠ 5) ∧
      (s.allWritten [.retLen] → exec .dchk s = .next t → t.fcause ≠ 5) ∧
      (s.allWritten [.magic, .payBase, .payLen] → exec .ahdr s = .next t → t.fcause ≠ 5) ∧
      (s.allWritten [.payBase, .payLen] → exec .anext s = .next t → t.fcause ≠ 5)

/-- R165: a window that does not lie inside `MEM`, with the checks before it passed; FINFO is the base register's value
and no byte is touched. -/
def Obligations.AccessFaultTable : Prop :=
  ∀ s : State, s.status.faulted = false →
    (s.cfg.memSize < s.regs.bufBase.toNat + s.regs.bufCnt.toNat → s.status.seeded = true →
      s.wv .bufBase = true → s.wv .bufCnt = true → exec .capply s = .next (s.latched 3 s.regs.bufBase)) ∧
    (s.cfg.memSize < s.regs.payBase.toNat + s.regs.payLen.toNat → s.wv .payBase = true → s.wv .payLen = true →
      exec .rdcrh s = .next (s.latched 3 s.regs.payBase) ∧
      (s.wv .magic = true → exec .ahdr s = .next (s.latched 3 s.regs.payBase)) ∧
      (s.status.arcok = true → s.status.notarc = false → s.ridx ≠ s.ah.count →
        exec .anext s = .next (s.latched 3 s.regs.payBase)))

/-- R164: the six conditions of `BoundsFault` and their FINFO, each with the checks before it passed. -/
def Obligations.BoundsFaultTable : Prop :=
  ∀ s : State, s.status.faulted = false → s.wv .payBase = true → s.wv .payLen = true →
    s.regs.payBase.toNat + s.regs.payLen.toNat ≤ s.cfg.memSize →
    (s.regs.payLen.toNat < 8 → exec .rdcrh s = .next (s.latched 2 0)) ∧
    (8 ≤ s.regs.payLen.toNat → s.regs.payLen.toNat < 8 + (s.payField 4).toNat →
      exec .rdcrh s = .next (s.latched 2 4)) ∧
    (s.wv .magic = true → s.regs.payLen.toNat < 16 → exec .ahdr s = .next (s.latched 2 0)) ∧
    (s.status.arcok = true → s.status.notarc = false → s.ridx ≠ s.ah.count →
      (s.regs.payLen.toNat < s.rptr.toNat + 16 → exec .anext s = .next (s.latched 2 s.rptr)) ∧
      (s.rptr.toNat + 16 ≤ s.regs.payLen.toNat →
        s.regs.payLen.toNat < s.rptr.toNat + 16 + (s.payField (s.rptr.toNat + 4)).toNat →
        exec .anext s = .next (s.latched 2 (s.rptr + 4))) ∧
      (s.rptr.toNat + 16 + (s.payField (s.rptr.toNat + 4)).toNat ≤ s.regs.payLen.toNat →
        s.regs.payLen.toNat <
          s.ah.doff.toNat + (s.payField (s.rptr.toNat + 8)).toNat + (s.payField (s.rptr.toNat + 12)).toNat →
        exec .anext s = .next (s.latched 2 (s.rptr + 8))))

/-- R170: a command that raises writes FCAUSE, FINFO and FAULTED and does nothing else. -/
def Obligations.FaultsArePrecise : Prop :=
  ∀ (i : Instr) (s t : State), s.status.faulted = false → exec i s = .next t → t.status.faulted = true →
    ∃ (code : BitVec 8) (info : Word64), 1 ≤ code.toNat ∧ code.toNat ≤ 6 ∧ t = s.latched code info

/-- From R172: while FAULTED is 1 every step keeps FAULTED, FCAUSE, FINFO and the cipher state, unless it serves an SRST
or the reset input. -/
def Obligations.FirstFaultIsKept : Prop :=
  ∀ s t : State, s.status.faulted = true → step s = .next t →
    (t.status = s.status ∧ t.fcause = s.fcause ∧ t.finfo = s.finfo ∧ t.cipher = s.cipher ∧ t.ah = s.ah ∧
      t.crh = s.crh ∧ t.fr = s.fr) ∨
    (∃ rest, s.pending = .wr 0x00 0xFF :: rest) ∨ ∃ rest, s.pending = .hardReset :: rest

/-- From R138: in every state that keeps the invariant, ANEXT raises no `UnwrittenRegister`. -/
def Obligations.AnextNeverRaisesUnwritten : Prop :=
  ∀ s t : State, s.Inv → s.status.faulted = false → exec .anext s = .next t → t.fcause ≠ 5

/-! The whole machine. -/

/-- From R20: `X` is written as a whole by CINIT and by reset, two of its words are changed by CXORB and CAPPLY, and
nothing else writes it; under the spec's layout. -/
def Obligations.OnlyCinitAndKsgenWriteX : Prop :=
  ∀ s t : State, s.cfg.pos = .rows → step s = .next t →
    t.cipher.x = s.cipher.x ∨
    (∃ rest, s.pending = .wr 0x00 0x01 :: rest) ∨ (∃ rest, s.pending = .wr 0x00 0xFF :: rest) ∨
    (∃ rest, s.pending = .hardReset :: rest) ∨
    (((∃ rest, s.pending = .wr 0x00 0x02 :: rest) ∨ ∃ rest, s.pending = .wr 0x00 0x03 :: rest) ∧
      ∀ i : Fin 16, i ≠ 12 → i ≠ 13 → t.cipher.x[i] = s.cipher.x[i])

/-- From R53, and from R51, which the spec marks as derived: of the commands only CAPPLY writes `MEM`, and of the host's
accesses only its own store. -/
def Obligations.OnlyCapplyAndTheHostWriteMem : Prop :=
  (∀ (i : Instr) (s t : State), i ≠ .capply → exec i s = .next t → t.mem = s.mem) ∧
  ∀ s t : State, step s = .next t →
    t.mem = s.mem ∨ (∃ rest, s.pending = .wr 0x00 0x03 :: rest) ∨
      ∃ a bs rest, s.pending = .memStore a bs :: rest

/-- From R42, and from R49, which the spec marks as derived from R117, R135 and R138: no command but SRST writes an `RW`
register or a written-valid bit, and no step but a reset clears a written-valid bit. -/
def Obligations.OnlyTheHostWritesRwRegisters : Prop :=
  (∀ (i : Instr) (s t : State), i ≠ .srst → exec i s = .next t → t.regs = s.regs ∧ t.wvalid = s.wvalid) ∧
  ∀ (s t : State) (r : RWReg), step s = .next t → s.wv r = true →
    t.wv r = true ∨ (∃ rest, s.pending = .wr 0x00 0xFF :: rest) ∨ ∃ rest, s.pending = .hardReset :: rest

/-- From R44 for `MEM_SIZE` and `POS`, and for FIELD_LE from R56 and from R58, which the spec marks as derived from R56
and R57: no step changes the configuration. That State carries it is the model's choice (log 4). -/
def Obligations.ConfigurationIsFixed : Prop := ∀ s t : State, step s = .next t → t.cfg = s.cfg

/-- Every step keeps the invariant (from R32, R40, R42, R161, and from R28 and R137, which the spec marks as derived;
that `CUR` is at least 1 after a CINIT is DEDUCED from R94 and R115): the canonical `MEM`, the fault latch, the
unwritten registers, the shape of the cipher state, the region header and the walk. -/
def Obligations.StepKeepsTheInvariant : Prop := ∀ s t : State, s.Inv → step s = .next t → t.Inv

/-- The invariant holds right after reset, under every configuration of at most 2^64 bytes (from R45). -/
def Obligations.ResetHasTheInvariant : Prop :=
  State.reset.Inv ∧ ∀ cfg : Config, cfg.memSize ≤ 2 ^ 64 → (State.resetWith cfg).Inv

/-- From R108 as 92_eei_decisions.md D2 reads it under the layout set aside, which the model holds as a switch (log 6):
KSGEN is the same but for the counter, which is `X[7]:X[6]`. -/
def Obligations.KsgenUnderTheSetAsideLayout : Prop :=
  ∀ c : CipherState,
    let c' := c.ksgen .salsaDiagonal
    c'.ks = (c.ksgen .rows).ks ∧
    c'.x[7].toNat * 2 ^ 32 + c'.x[6].toNat = (c.x[7].toNat * 2 ^ 32 + c.x[6].toNat + 1) % 2 ^ 64 ∧
    (∀ i : Fin 16, i ≠ 6 → i ≠ 7 → c'.x[i] = c.x[i]) ∧
    c'.cur = 0
end

