-- ==== Sys2Proof/Laws/Memory.lean ====
section
/-! SUPPORT. The laws of `MEM`: every memory operation keeps the canonical form, a read after a write gives the value
written, a write leaves every other byte alone, and memories that read alike are equal. -/

namespace Sys2Proof.Machine

theorem canonicalFrom_cons_iff {size low a : Nat} {b : Byte} {m : Memory} :
    Memory.canonicalFrom size low ((a, b) :: m) = true ↔
      low ≤ a ∧ a < size ∧ b ≠ Memory.unlistedByte ∧ Memory.canonicalFrom size (a + 1) m = true := by
  simp [Memory.canonicalFrom, and_assoc]

theorem canonicalFrom_of_le {size low low' : Nat} (hle : low' ≤ low) :
    ∀ {m : Memory}, Memory.canonicalFrom size low m = true → Memory.canonicalFrom size low' m = true
  | [], _ => rfl
  | (a, b) :: m, h => by
    rw [canonicalFrom_cons_iff] at h ⊢
    exact ⟨hle.trans h.1, h.2⟩

theorem readByte_of_lt {size low x : Nat} (hx : x < low) :
    ∀ {m : Memory}, Memory.canonicalFrom size low m = true → m.readByte x = Memory.unlistedByte
  | [], _ => rfl
  | (a, b) :: m, h => by
    rw [canonicalFrom_cons_iff] at h
    have hne : a ≠ x := by omega
    simp only [Memory.readByte, hne, if_false]
    exact readByte_of_lt (by omega) h.2.2.2

theorem canonicalFrom_consByte {size low a : Nat} {v : Byte} {m : Memory} (hlow : low ≤ a) (hsize : a < size)
    (h : Memory.canonicalFrom size (a + 1) m = true) :
    Memory.canonicalFrom size low (Memory.consByte a v m) = true := by
  unfold Memory.consByte
  split
  · exact canonicalFrom_of_le (by omega) h
  · next hv => exact canonicalFrom_cons_iff.2 ⟨hlow, hsize, hv, h⟩

/-- Writing a byte inside `MEM` keeps the canonical form. -/
theorem canonicalFrom_writeByte {size addr : Nat} {v : Byte} (hsize : addr < size) :
    ∀ {low : Nat} {m : Memory}, low ≤ addr → Memory.canonicalFrom size low m = true →
      Memory.canonicalFrom size low (m.writeByte addr v) = true
  | _, [], hlow, _ => canonicalFrom_consByte hlow hsize rfl
  | low, (a, b) :: m, hlow, h => by
    have h' := canonicalFrom_cons_iff.1 h
    unfold Memory.writeByte
    split
    · next hlt =>
      exact canonicalFrom_consByte hlow hsize (canonicalFrom_cons_iff.2 ⟨by omega, h'.2⟩)
    · split
      · next heq => exact canonicalFrom_consByte hlow hsize (heq ▸ h'.2.2.2)
      · exact canonicalFrom_cons_iff.2
          ⟨h'.1, h'.2.1, h'.2.2.1, canonicalFrom_writeByte hsize (by omega) h'.2.2.2⟩

theorem wf_writeByte {size addr : Nat} {v : Byte} {m : Memory} (hsize : addr < size) (h : m.wf size = true) :
    (m.writeByte addr v).wf size = true := canonicalFrom_writeByte (low := 0) hsize (Nat.zero_le _) h

theorem readByte_consByte {size a x : Nat} {v : Byte} {m : Memory}
    (h : Memory.canonicalFrom size (a + 1) m = true) :
    (Memory.consByte a v m).readByte x = if x = a then v else m.readByte x := by
  unfold Memory.consByte
  split
  · next hv =>
    split
    · next hx => rw [hv]; exact readByte_of_lt (by omega) h
    · rfl
  · by_cases hx : x = a
    · simp [Memory.readByte, hx]
    · simp [Memory.readByte, hx, Ne.symm hx]

theorem readByte_writeByte_from {size addr x : Nat} {v : Byte} :
    ∀ {low : Nat} {m : Memory}, Memory.canonicalFrom size low m = true →
      (m.writeByte addr v).readByte x = if x = addr then v else m.readByte x
  | _, [], _ => readByte_consByte (size := size) (m := []) rfl
  | low, (a, b) :: m, h => by
    have h' := canonicalFrom_cons_iff.1 h
    unfold Memory.writeByte
    split
    · exact readByte_consByte (size := size) (canonicalFrom_cons_iff.2 ⟨by omega, h'.2⟩)
    · split
      · next heq =>
        rw [readByte_consByte (size := size) (heq ▸ h'.2.2.2)]
        split
        · rfl
        · next hx => simp [Memory.readByte, show a ≠ x by omega]
      · next hne =>
        simp only [Memory.readByte]
        split
        · next hax => simp [show x ≠ addr by omega]
        · exact readByte_writeByte_from h'.2.2.2

/-- What a byte reads as after a write: the value written at that address, the old byte elsewhere. -/
theorem readByte_writeByte {size addr x : Nat} {v : Byte} {m : Memory} (h : m.wf size = true) :
    (m.writeByte addr v).readByte x = if x = addr then v else m.readByte x := readByte_writeByte_from h

theorem wf_writeBytes {size : Nat} :
    ∀ {bs : List Byte} {addr : Nat} {m : Memory}, addr + bs.length ≤ size → m.wf size = true →
      (m.writeBytes addr bs).wf size = true
  | [], _, _, _, h => h
  | b :: bs, addr, m, hle, h => by
    simp only [List.length_cons] at hle
    rw [Memory.writeBytes]
    exact wf_writeBytes (by omega) (wf_writeByte (by omega) h)

/-- What a byte reads as after a list of bytes was stored: the byte of the list inside the stored range, the old byte
outside it. -/
theorem readByte_writeBytes {size : Nat} :
    ∀ {bs : List Byte} {addr x : Nat} {m : Memory}, addr + bs.length ≤ size → m.wf size = true →
      (m.writeBytes addr bs).readByte x =
        if addr ≤ x ∧ x < addr + bs.length then bs.getD (x - addr) 0 else m.readByte x
  | [], addr, x, m, _, _ => by
    have : ¬(addr ≤ x ∧ x < addr) := by omega
    simp [Memory.writeBytes, this]
  | b :: bs, addr, x, m, hle, h => by
    simp only [List.length_cons] at hle ⊢
    rw [Memory.writeBytes, readByte_writeBytes (by omega) (wf_writeByte (by omega) h), readByte_writeByte h]
    by_cases hx : x = addr
    · subst hx; simp
    · by_cases hin : addr + 1 ≤ x ∧ x < addr + 1 + bs.length
      · have : x - addr = (x - (addr + 1)) + 1 := by omega
        rw [if_pos hin, if_pos (by omega), this, List.getD_cons_succ]
      · rw [if_neg hin, if_neg hx, if_neg (by omega)]

@[simp] theorem length_readBytes (m : Memory) : ∀ (n addr : Nat), (m.readBytes addr n).length = n
  | 0, _ => rfl
  | n + 1, addr => by simp [Memory.readBytes, length_readBytes m n]

/-- Byte `i` of `MemRead(addr, n)` is `MEM[addr + i]`. -/
theorem getD_readBytes (m : Memory) : ∀ (n addr i : Nat), i < n → (m.readBytes addr n).getD i 0 = m.readByte (addr + i)
  | n + 1, addr, 0, _ => by simp [Memory.readBytes]
  | n + 1, addr, i + 1, h => by
    rw [Memory.readBytes, List.getD_cons_succ, getD_readBytes m n (addr + 1) i (by omega)]
    congr 1
    omega

theorem readBytes_congr {m m' : Memory} : ∀ {n addr : Nat},
    (∀ a, addr ≤ a → a < addr + n → m.readByte a = m'.readByte a) → m.readBytes addr n = m'.readBytes addr n
  | 0, _, _ => rfl
  | n + 1, addr, h => by
    rw [Memory.readBytes, Memory.readBytes, h addr (by omega) (by omega),
      readBytes_congr (fun a h1 h2 => h a (by omega) (by omega))]

theorem eq_of_readByte_from {size : Nat} :
    ∀ {low : Nat} {m m' : Memory}, Memory.canonicalFrom size low m = true → Memory.canonicalFrom size low m' = true →
      (∀ x, m.readByte x = m'.readByte x) → m = m'
  | _, [], [], _, _, _ => rfl
  | _, [], (a, b) :: m', _, h', hr => by
    have h2 := canonicalFrom_cons_iff.1 h'
    exact absurd (by simpa [Memory.readByte] using (hr a).symm) h2.2.2.1
  | _, (a, b) :: m, [], h, _, hr => by
    have h1 := canonicalFrom_cons_iff.1 h
    exact absurd (by simpa [Memory.readByte] using hr a) h1.2.2.1
  | _, (a, b) :: m, (a', b') :: m', h, h', hr => by
    have h1 := canonicalFrom_cons_iff.1 h
    have h2 := canonicalFrom_cons_iff.1 h'
    have haa : a = a' := by
      rcases Nat.lt_trichotomy a a' with hlt | heq | hgt
      · refine absurd ?_ h1.2.2.1
        have := hr a
        simpa [Memory.readByte, show a' ≠ a by omega, readByte_of_lt (show a < a' + 1 by omega) h2.2.2.2] using this
      · exact heq
      · refine absurd ?_ h2.2.2.1
        have := hr a'
        simpa [Memory.readByte, show a ≠ a' by omega, readByte_of_lt (show a' < a + 1 by omega) h1.2.2.2] using this.symm
    subst haa
    have hbb : b = b' := by simpa [Memory.readByte] using hr a
    subst hbb
    rw [eq_of_readByte_from h1.2.2.2 h2.2.2.2 (fun x => ?_)]
    by_cases hx : a = x
    · subst hx
      rw [readByte_of_lt (Nat.lt_succ_self a) h1.2.2.2, readByte_of_lt (Nat.lt_succ_self a) h2.2.2.2]
    · simpa [Memory.readByte, hx] using hr x

/-- Equal memories are equal data: two canonical memories that read alike everywhere are the same list. -/
theorem eq_of_readByte {size : Nat} {m m' : Memory} (h : m.wf size = true) (h' : m'.wf size = true)
    (hr : ∀ x, m.readByte x = m'.readByte x) : m = m' := eq_of_readByte_from h h' hr

/-- A little-endian word as a number (00_scope.md R13). -/
theorem toNat_le32 (b0 b1 b2 b3 : Byte) :
    (le32 b0 b1 b2 b3).toNat = b0.toNat + 2 ^ 8 * b1.toNat + 2 ^ 16 * b2.toNat + 2 ^ 24 * b3.toNat := by
  rw [le32, BitVec.toNat_append, BitVec.toNat_append, BitVec.toNat_append, ← Nat.shiftLeft_add_eq_or_of_lt b0.isLt,
    ← Nat.shiftLeft_add_eq_or_of_lt b1.isLt, ← Nat.shiftLeft_add_eq_or_of_lt b2.isLt]
  simp only [Nat.shiftLeft_eq]
  omega

end Sys2Proof.Machine
end

