-- ==== Sys2Proof/Laws/State.lean ====
section
/-! SUPPORT. What each shared update does to each field of the state: one lemma per field, true by definition. -/

namespace Sys2Proof.Machine

@[simp] theorem State.raise_cfg (s : State) (f : Raised) : (s.raise f).cfg = s.cfg := rfl
@[simp] theorem State.raise_cipher (s : State) (f : Raised) : (s.raise f).cipher = s.cipher := rfl
@[simp] theorem State.raise_regs (s : State) (f : Raised) : (s.raise f).regs = s.regs := rfl
@[simp] theorem State.raise_wvalid (s : State) (f : Raised) : (s.raise f).wvalid = s.wvalid := rfl
@[simp] theorem State.raise_dout (s : State) (f : Raised) : (s.raise f).dout = s.dout := rfl
@[simp] theorem State.raise_status (s : State) (f : Raised) : (s.raise f).status = s.status.afterFault := rfl
@[simp] theorem State.raise_fcause (s : State) (f : Raised) : (s.raise f).fcause = causeCode f.cause := rfl
@[simp] theorem State.raise_finfo (s : State) (f : Raised) : (s.raise f).finfo = f.info := rfl
@[simp] theorem State.raise_crh (s : State) (f : Raised) : (s.raise f).crh = s.crh := rfl
@[simp] theorem State.raise_ah (s : State) (f : Raised) : (s.raise f).ah = s.ah := rfl
@[simp] theorem State.raise_rptr (s : State) (f : Raised) : (s.raise f).rptr = s.rptr := rfl
@[simp] theorem State.raise_ridx (s : State) (f : Raised) : (s.raise f).ridx = s.ridx := rfl
@[simp] theorem State.raise_fr (s : State) (f : Raised) : (s.raise f).fr = s.fr := rfl
@[simp] theorem State.raise_mem (s : State) (f : Raised) : (s.raise f).mem = s.mem := rfl
@[simp] theorem State.raise_pending (s : State) (f : Raised) : (s.raise f).pending = s.pending := rfl
@[simp] theorem State.raise_replies (s : State) (f : Raised) : (s.raise f).replies = s.replies := rfl

@[simp] theorem State.resetBlock_cfg (s : State) : (s.resetBlock).cfg = s.cfg := rfl
@[simp] theorem State.resetBlock_cipher (s : State) : (s.resetBlock).cipher = (State.resetWith s.cfg).cipher := rfl
@[simp] theorem State.resetBlock_regs (s : State) : (s.resetBlock).regs = (State.resetWith s.cfg).regs := rfl
@[simp] theorem State.resetBlock_wvalid (s : State) : (s.resetBlock).wvalid = (State.resetWith s.cfg).wvalid := rfl
@[simp] theorem State.resetBlock_dout (s : State) : (s.resetBlock).dout = (State.resetWith s.cfg).dout := rfl
@[simp] theorem State.resetBlock_status (s : State) : (s.resetBlock).status = (State.resetWith s.cfg).status := rfl
@[simp] theorem State.resetBlock_fcause (s : State) : (s.resetBlock).fcause = (State.resetWith s.cfg).fcause := rfl
@[simp] theorem State.resetBlock_finfo (s : State) : (s.resetBlock).finfo = (State.resetWith s.cfg).finfo := rfl
@[simp] theorem State.resetBlock_crh (s : State) : (s.resetBlock).crh = (State.resetWith s.cfg).crh := rfl
@[simp] theorem State.resetBlock_ah (s : State) : (s.resetBlock).ah = (State.resetWith s.cfg).ah := rfl
@[simp] theorem State.resetBlock_rptr (s : State) : (s.resetBlock).rptr = (State.resetWith s.cfg).rptr := rfl
@[simp] theorem State.resetBlock_ridx (s : State) : (s.resetBlock).ridx = (State.resetWith s.cfg).ridx := rfl
@[simp] theorem State.resetBlock_fr (s : State) : (s.resetBlock).fr = (State.resetWith s.cfg).fr := rfl
@[simp] theorem State.resetBlock_mem (s : State) : (s.resetBlock).mem = s.mem := rfl
@[simp] theorem State.resetBlock_pending (s : State) : (s.resetBlock).pending = s.pending := rfl
@[simp] theorem State.resetBlock_replies (s : State) : (s.resetBlock).replies = s.replies := rfl

@[simp] theorem State.writeRW_cfg (s : State) (r : RWReg) (v : Word64) : (s.writeRW r v).cfg = s.cfg := rfl
@[simp] theorem State.writeRW_cipher (s : State) (r : RWReg) (v : Word64) : (s.writeRW r v).cipher = s.cipher := rfl
@[simp] theorem State.writeRW_regs (s : State) (r : RWReg) (v : Word64) : (s.writeRW r v).regs = s.regs.write r v := rfl
@[simp] theorem State.writeRW_wvalid (s : State) (r : RWReg) (v : Word64) : (s.writeRW r v).wvalid = s.wvalid ||| (1#16 <<< wvIndex r) := rfl
@[simp] theorem State.writeRW_dout (s : State) (r : RWReg) (v : Word64) : (s.writeRW r v).dout = s.dout := rfl
@[simp] theorem State.writeRW_status (s : State) (r : RWReg) (v : Word64) : (s.writeRW r v).status = s.status := rfl
@[simp] theorem State.writeRW_fcause (s : State) (r : RWReg) (v : Word64) : (s.writeRW r v).fcause = s.fcause := rfl
@[simp] theorem State.writeRW_finfo (s : State) (r : RWReg) (v : Word64) : (s.writeRW r v).finfo = s.finfo := rfl
@[simp] theorem State.writeRW_crh (s : State) (r : RWReg) (v : Word64) : (s.writeRW r v).crh = s.crh := rfl
@[simp] theorem State.writeRW_ah (s : State) (r : RWReg) (v : Word64) : (s.writeRW r v).ah = s.ah := rfl
@[simp] theorem State.writeRW_rptr (s : State) (r : RWReg) (v : Word64) : (s.writeRW r v).rptr = s.rptr := rfl
@[simp] theorem State.writeRW_ridx (s : State) (r : RWReg) (v : Word64) : (s.writeRW r v).ridx = s.ridx := rfl
@[simp] theorem State.writeRW_fr (s : State) (r : RWReg) (v : Word64) : (s.writeRW r v).fr = s.fr := rfl
@[simp] theorem State.writeRW_mem (s : State) (r : RWReg) (v : Word64) : (s.writeRW r v).mem = s.mem := rfl
@[simp] theorem State.writeRW_pending (s : State) (r : RWReg) (v : Word64) : (s.writeRW r v).pending = s.pending := rfl
@[simp] theorem State.writeRW_replies (s : State) (r : RWReg) (v : Word64) : (s.writeRW r v).replies = s.replies := rfl

@[simp] theorem State.reply_cfg (s : State) (a : HostReply) : (s.reply a).cfg = s.cfg := rfl
@[simp] theorem State.reply_cipher (s : State) (a : HostReply) : (s.reply a).cipher = s.cipher := rfl
@[simp] theorem State.reply_regs (s : State) (a : HostReply) : (s.reply a).regs = s.regs := rfl
@[simp] theorem State.reply_wvalid (s : State) (a : HostReply) : (s.reply a).wvalid = s.wvalid := rfl
@[simp] theorem State.reply_dout (s : State) (a : HostReply) : (s.reply a).dout = s.dout := rfl
@[simp] theorem State.reply_status (s : State) (a : HostReply) : (s.reply a).status = s.status := rfl
@[simp] theorem State.reply_fcause (s : State) (a : HostReply) : (s.reply a).fcause = s.fcause := rfl
@[simp] theorem State.reply_finfo (s : State) (a : HostReply) : (s.reply a).finfo = s.finfo := rfl
@[simp] theorem State.reply_crh (s : State) (a : HostReply) : (s.reply a).crh = s.crh := rfl
@[simp] theorem State.reply_ah (s : State) (a : HostReply) : (s.reply a).ah = s.ah := rfl
@[simp] theorem State.reply_rptr (s : State) (a : HostReply) : (s.reply a).rptr = s.rptr := rfl
@[simp] theorem State.reply_ridx (s : State) (a : HostReply) : (s.reply a).ridx = s.ridx := rfl
@[simp] theorem State.reply_fr (s : State) (a : HostReply) : (s.reply a).fr = s.fr := rfl
@[simp] theorem State.reply_mem (s : State) (a : HostReply) : (s.reply a).mem = s.mem := rfl
@[simp] theorem State.reply_pending (s : State) (a : HostReply) : (s.reply a).pending = s.pending := rfl
@[simp] theorem State.reply_replies (s : State) (a : HostReply) : (s.reply a).replies = s.replies ++ [a] := rfl

@[simp] theorem Status.afterCinit_seeded (st : Status) : (st.afterCinit).seeded = true := rfl
@[simp] theorem Status.afterCinit_faulted (st : Status) : (st.afterCinit).faulted = st.faulted := rfl
@[simp] theorem Status.afterCinit_arcok (st : Status) : (st.afterCinit).arcok = st.arcok := rfl
@[simp] theorem Status.afterCinit_notarc (st : Status) : (st.afterCinit).notarc = st.notarc := rfl
@[simp] theorem Status.afterCinit_recv (st : Status) : (st.afterCinit).recv = st.recv := rfl
@[simp] theorem Status.afterCinit_ended (st : Status) : (st.afterCinit).ended = st.ended := rfl
@[simp] theorem Status.afterCinit_crhv (st : Status) : (st.afterCinit).crhv = st.crhv := rfl
@[simp] theorem Status.afterCinit_dcok (st : Status) : (st.afterCinit).dcok = st.dcok := rfl

@[simp] theorem Status.afterRdcrh_seeded (st : Status) : (st.afterRdcrh).seeded = st.seeded := rfl
@[simp] theorem Status.afterRdcrh_faulted (st : Status) : (st.afterRdcrh).faulted = st.faulted := rfl
@[simp] theorem Status.afterRdcrh_arcok (st : Status) : (st.afterRdcrh).arcok = st.arcok := rfl
@[simp] theorem Status.afterRdcrh_notarc (st : Status) : (st.afterRdcrh).notarc = st.notarc := rfl
@[simp] theorem Status.afterRdcrh_recv (st : Status) : (st.afterRdcrh).recv = st.recv := rfl
@[simp] theorem Status.afterRdcrh_ended (st : Status) : (st.afterRdcrh).ended = st.ended := rfl
@[simp] theorem Status.afterRdcrh_crhv (st : Status) : (st.afterRdcrh).crhv = true := rfl
@[simp] theorem Status.afterRdcrh_dcok (st : Status) : (st.afterRdcrh).dcok = false := rfl

@[simp] theorem Status.afterDchk_seeded (st : Status) : (st.afterDchk).seeded = st.seeded := rfl
@[simp] theorem Status.afterDchk_faulted (st : Status) : (st.afterDchk).faulted = st.faulted := rfl
@[simp] theorem Status.afterDchk_arcok (st : Status) : (st.afterDchk).arcok = st.arcok := rfl
@[simp] theorem Status.afterDchk_notarc (st : Status) : (st.afterDchk).notarc = st.notarc := rfl
@[simp] theorem Status.afterDchk_recv (st : Status) : (st.afterDchk).recv = st.recv := rfl
@[simp] theorem Status.afterDchk_ended (st : Status) : (st.afterDchk).ended = st.ended := rfl
@[simp] theorem Status.afterDchk_crhv (st : Status) : (st.afterDchk).crhv = st.crhv := rfl
@[simp] theorem Status.afterDchk_dcok (st : Status) : (st.afterDchk).dcok = true := rfl

@[simp] theorem Status.afterAhdr_seeded (st : Status) (b : Bool) : (st.afterAhdr b).seeded = st.seeded := rfl
@[simp] theorem Status.afterAhdr_faulted (st : Status) (b : Bool) : (st.afterAhdr b).faulted = st.faulted := rfl
@[simp] theorem Status.afterAhdr_arcok (st : Status) (b : Bool) : (st.afterAhdr b).arcok = b := rfl
@[simp] theorem Status.afterAhdr_notarc (st : Status) (b : Bool) : (st.afterAhdr b).notarc = !b := rfl
@[simp] theorem Status.afterAhdr_recv (st : Status) (b : Bool) : (st.afterAhdr b).recv = false := rfl
@[simp] theorem Status.afterAhdr_ended (st : Status) (b : Bool) : (st.afterAhdr b).ended = false := rfl
@[simp] theorem Status.afterAhdr_crhv (st : Status) (b : Bool) : (st.afterAhdr b).crhv = st.crhv := rfl
@[simp] theorem Status.afterAhdr_dcok (st : Status) (b : Bool) : (st.afterAhdr b).dcok = st.dcok := rfl

@[simp] theorem Status.afterRecord_seeded (st : Status) : (st.afterRecord).seeded = st.seeded := rfl
@[simp] theorem Status.afterRecord_faulted (st : Status) : (st.afterRecord).faulted = st.faulted := rfl
@[simp] theorem Status.afterRecord_arcok (st : Status) : (st.afterRecord).arcok = st.arcok := rfl
@[simp] theorem Status.afterRecord_notarc (st : Status) : (st.afterRecord).notarc = st.notarc := rfl
@[simp] theorem Status.afterRecord_recv (st : Status) : (st.afterRecord).recv = true := rfl
@[simp] theorem Status.afterRecord_ended (st : Status) : (st.afterRecord).ended = st.ended := rfl
@[simp] theorem Status.afterRecord_crhv (st : Status) : (st.afterRecord).crhv = st.crhv := rfl
@[simp] theorem Status.afterRecord_dcok (st : Status) : (st.afterRecord).dcok = st.dcok := rfl

@[simp] theorem Status.afterEnd_seeded (st : Status) : (st.afterEnd).seeded = st.seeded := rfl
@[simp] theorem Status.afterEnd_faulted (st : Status) : (st.afterEnd).faulted = st.faulted := rfl
@[simp] theorem Status.afterEnd_arcok (st : Status) : (st.afterEnd).arcok = st.arcok := rfl
@[simp] theorem Status.afterEnd_notarc (st : Status) : (st.afterEnd).notarc = st.notarc := rfl
@[simp] theorem Status.afterEnd_recv (st : Status) : (st.afterEnd).recv = false := rfl
@[simp] theorem Status.afterEnd_ended (st : Status) : (st.afterEnd).ended = true := rfl
@[simp] theorem Status.afterEnd_crhv (st : Status) : (st.afterEnd).crhv = st.crhv := rfl
@[simp] theorem Status.afterEnd_dcok (st : Status) : (st.afterEnd).dcok = st.dcok := rfl

@[simp] theorem Status.afterFault_seeded (st : Status) : (st.afterFault).seeded = st.seeded := rfl
@[simp] theorem Status.afterFault_faulted (st : Status) : (st.afterFault).faulted = true := rfl
@[simp] theorem Status.afterFault_arcok (st : Status) : (st.afterFault).arcok = st.arcok := rfl
@[simp] theorem Status.afterFault_notarc (st : Status) : (st.afterFault).notarc = st.notarc := rfl
@[simp] theorem Status.afterFault_recv (st : Status) : (st.afterFault).recv = st.recv := rfl
@[simp] theorem Status.afterFault_ended (st : Status) : (st.afterFault).ended = st.ended := rfl
@[simp] theorem Status.afterFault_crhv (st : Status) : (st.afterFault).crhv = st.crhv := rfl
@[simp] theorem Status.afterFault_dcok (st : Status) : (st.afterFault).dcok = st.dcok := rfl

@[simp] theorem CipherState.ksgen_x (pos : SeedLayout) (c : CipherState) : (c.ksgen pos).x = withCounter pos c.x (blockCounter pos c.x + 1) := rfl
@[simp] theorem CipherState.ksgen_ks (pos : SeedLayout) (c : CipherState) : (c.ksgen pos).ks = blockBytes c.x := rfl
@[simp] theorem CipherState.ksgen_cur (pos : SeedLayout) (c : CipherState) : (c.ksgen pos).cur = 0 := rfl
@[simp] theorem CipherState.seed_x (pos : SeedLayout) (key : KeyWords) (len : Word64) (c : CipherState) :
    (c.seed pos key len).x = seedWords pos key len := rfl
@[simp] theorem CipherState.seed_ks (pos : SeedLayout) (key : KeyWords) (len : Word64) (c : CipherState) :
    (c.seed pos key len).ks = c.ks := rfl
@[simp] theorem CipherState.seed_cur (pos : SeedLayout) (key : KeyWords) (len : Word64) (c : CipherState) :
    (c.seed pos key len).cur = 64 := rfl

end Sys2Proof.Machine
end

