-- ==== Sys2Proof/Laws/Cipher.lean ====
section
/-! SUPPORT. The laws of the cipher: the block counter, KSGEN and XSTEP, and the loop of CAPPLY as XSTEP over the list of
the window's bytes. -/

namespace Sys2Proof.Machine

/-! The block counter. -/

theorem counterLow_ne_counterHigh (pos : SeedLayout) : (counterLow pos : Nat) ≠ counterHigh pos := by
  cases pos <;> decide

/-- Two words side by side, as a number. -/
theorem toNat_append_words (h l : Word) : (h ++ l : Word64).toNat = h.toNat * 2 ^ 32 + l.toNat := by
  rw [BitVec.toNat_append, ← Nat.shiftLeft_add_eq_or_of_lt l.isLt, Nat.shiftLeft_eq]

theorem toNat_high (n : Word64) : (n.extractLsb' 32 32).toNat = n.toNat / 2 ^ 32 := by
  rw [BitVec.extractLsb'_toNat, Nat.shiftRight_eq_div_pow]
  exact Nat.mod_eq_of_lt (by have := n.isLt; omega)

theorem append_halves (n : Word64) : (n.extractLsb' 32 32 ++ n.setWidth 32 : Word64) = n := by
  apply BitVec.eq_of_toNat_eq
  rw [toNat_append_words, toNat_high, BitVec.toNat_setWidth]
  omega

theorem low_append (h l : Word) : (h ++ l : Word64).setWidth 32 = l := by
  apply BitVec.eq_of_toNat_eq
  rw [BitVec.toNat_setWidth, toNat_append_words]
  have := l.isLt
  omega

theorem high_append (h l : Word) : (h ++ l : Word64).extractLsb' 32 32 = h := by
  apply BitVec.eq_of_toNat_eq
  rw [toNat_high, toNat_append_words]
  have := l.isLt
  omega

/-- The counter of a state array whose counter was set. -/
@[simp] theorem blockCounter_withCounter (pos : SeedLayout) (x : Words) (n : Word64) :
    blockCounter pos (withCounter pos x n) = n := by
  have h := counterLow_ne_counterHigh pos
  simp only [blockCounter, withCounter, Fin.getElem_fin, Vector.getElem_set_self, Vector.getElem_set_ne _ _ h.symm]
  exact append_halves n

@[simp] theorem withCounter_withCounter (pos : SeedLayout) (x : Words) (n n' : Word64) :
    withCounter pos (withCounter pos x n) n' = withCounter pos x n' := by
  have h := counterLow_ne_counterHigh pos
  apply Vector.ext
  intro i hi
  simp only [withCounter, Vector.getElem_set]
  split <;> simp_all

/-- Setting the counter changes no word but the two counter words. -/
theorem getElem_withCounter_of_ne (pos : SeedLayout) (x : Words) (n : Word64) (i : Fin 16)
    (hl : i ≠ counterLow pos) (hh : i ≠ counterHigh pos) : (withCounter pos x n)[i] = x[i] := by
  have h1 : (counterLow pos : Nat) ≠ i := fun h => hl (Fin.ext h.symm)
  have h2 : (counterHigh pos : Nat) ≠ i := fun h => hh (Fin.ext h.symm)
  simp [withCounter, h1, h2]

@[simp] theorem withCounter_blockCounter (pos : SeedLayout) (x : Words) : withCounter pos x (blockCounter pos x) = x := by
  apply Vector.ext
  intro i hi
  simp only [withCounter, blockCounter, Vector.getElem_set]
  split
  · next h => subst h; exact high_append _ _
  · split
    · next h => subst h; exact low_append _ _
    · rfl

theorem seedAt_zero (pos : SeedLayout) (key : KeyWords) (len : Word64) :
    seedAt pos key len 0 = seedWords pos key len := by simp [seedAt]

/-- The counter step takes the seed of one block to the seed of the next. -/
theorem seedAt_succ (pos : SeedLayout) (key : KeyWords) (len : Word64) (n : Nat) :
    withCounter pos (seedAt pos key len n) (blockCounter pos (seedAt pos key len n) + 1) =
      seedAt pos key len (n + 1) := by
  simp only [seedAt, blockCounter_withCounter, withCounter_withCounter]
  congr 1
  rw [BitVec.add_assoc, BitVec.ofNat_add]
  rfl

/-! KSGEN and XSTEP. -/

theorem refill_of_lt {pos : SeedLayout} {c : CipherState} (h : c.cur.val < 64) : c.refill pos = c := by
  have : c.cur ≠ 64 := fun h' => by rw [h'] at h; exact absurd h (by decide)
  simp [CipherState.refill, this]

theorem refill_of_eq {pos : SeedLayout} {c : CipherState} (h : c.cur = 64) : c.refill pos = c.ksgen pos := by
  simp [CipherState.refill, h]

theorem cur_lt_or_eq (c : CipherState) : c.cur.val < 64 ∨ c.cur = 64 := by
  rcases Nat.lt_or_ge c.cur.val 64 with h | h
  · exact .inl h
  · exact .inr (Fin.ext (Nat.le_antisymm (Nat.lt_succ_iff.1 c.cur.isLt) h))

/-- XSTEP reads `KS[CUR]` only where `CUR < 64`. -/
theorem refill_cur_lt (pos : SeedLayout) (c : CipherState) : (c.refill pos).cur.val < 64 := by
  rcases cur_lt_or_eq c with h | h
  · rwa [refill_of_lt h]
  · rw [refill_of_eq h, CipherState.ksgen_cur]; decide

theorem val_cur_add_one {i : Fin 65} (h : i.val < 64) : (i + 1).val = i.val + 1 := by
  rw [Fin.val_add]
  exact Nat.mod_eq_of_lt (by show i.val + 1 < 65; omega)

@[simp] theorem xstep_fst (pos : SeedLayout) (b : Byte) (c : CipherState) :
    (c.xstep pos b).1 = b ^^^ (c.refill pos).keystreamByte := rfl

@[simp] theorem xstep_x (pos : SeedLayout) (b : Byte) (c : CipherState) :
    (c.xstep pos b).2.x = (c.refill pos).x := rfl

@[simp] theorem xstep_ks (pos : SeedLayout) (b : Byte) (c : CipherState) :
    (c.xstep pos b).2.ks = (c.refill pos).ks := rfl

@[simp] theorem xstep_cur (pos : SeedLayout) (b : Byte) (c : CipherState) :
    (c.xstep pos b).2.cur = (c.refill pos).cur + 1 := rfl

theorem xstep_cur_val (pos : SeedLayout) (b : Byte) (c : CipherState) :
    (c.xstep pos b).2.cur.val = (c.refill pos).cur.val + 1 := val_cur_add_one (refill_cur_lt pos c)

/-- The cipher state after XSTEP does not depend on the byte. -/
theorem xstep_snd_eq (pos : SeedLayout) (b b' : Byte) (c : CipherState) : (c.xstep pos b).2 = (c.xstep pos b').2 := rfl

theorem keystreamByte_of_lt {c : CipherState} (h : c.cur.val < 64) : c.keystreamByte = c.ks[c.cur.val] := by
  simp [CipherState.keystreamByte, h]

/-! XSTEP over a list. -/

@[simp] theorem xsteps_nil (pos : SeedLayout) (c : CipherState) : c.xsteps pos [] = ([], c) := rfl

theorem xsteps_cons (pos : SeedLayout) (b : Byte) (bs : List Byte) (c : CipherState) :
    c.xsteps pos (b :: bs) =
      ((c.xstep pos b).1 :: ((c.xstep pos b).2.xsteps pos bs).1, ((c.xstep pos b).2.xsteps pos bs).2) := rfl

theorem xsteps_append (pos : SeedLayout) : ∀ (bs bs' : List Byte) (c : CipherState),
    c.xsteps pos (bs ++ bs') =
      ((c.xsteps pos bs).1 ++ ((c.xsteps pos bs).2.xsteps pos bs').1, ((c.xsteps pos bs).2.xsteps pos bs').2)
  | [], _, _ => rfl
  | b :: bs, bs', c => by
    rw [List.cons_append, xsteps_cons, xsteps_cons, xsteps_append pos bs bs']
    rfl

@[simp] theorem length_xsteps (pos : SeedLayout) : ∀ (bs : List Byte) (c : CipherState),
    (c.xsteps pos bs).1.length = bs.length
  | [], _ => rfl
  | b :: bs, c => by simp [xsteps_cons, length_xsteps pos bs]

/-- The cipher state after a list of bytes depends on their number only. -/
theorem xsteps_snd_congr (pos : SeedLayout) : ∀ (bs bs' : List Byte) (c : CipherState), bs.length = bs'.length →
    (c.xsteps pos bs).2 = (c.xsteps pos bs').2
  | [], [], _, _ => rfl
  | b :: bs, b' :: bs', c, h => by
    rw [xsteps_cons, xsteps_cons, xstep_snd_eq pos b b']
    exact xsteps_snd_congr pos bs bs' _ (by simpa using h)

/-- Each byte out differs from the byte in by a keystream byte that depends on the position only. -/
theorem xsteps_xor_congr (pos : SeedLayout) : ∀ (bs bs' : List Byte) (c : CipherState) (i : Nat),
    bs.length = bs'.length → i < bs.length →
    (c.xsteps pos bs).1.getD i 0 ^^^ bs.getD i 0 = (c.xsteps pos bs').1.getD i 0 ^^^ bs'.getD i 0
  | [], [], _, _, _, h => absurd h (Nat.not_lt_zero _)
  | b :: bs, b' :: bs', c, 0, _, _ => by
    simp only [xsteps_cons, List.getD_cons_zero, xstep_fst]
    rw [BitVec.xor_comm b, BitVec.xor_comm b', BitVec.xor_assoc, BitVec.xor_assoc, BitVec.xor_self, BitVec.xor_self]
  | b :: bs, b' :: bs', c, i + 1, h, hi => by
    simp only [xsteps_cons, List.getD_cons_succ, xstep_snd_eq pos b b']
    exact xsteps_xor_congr pos bs bs' _ i (by simpa using h) (by simpa using hi)

/-- XSTEP over a list and then over its result from the same cipher state gives the list back. -/
theorem xsteps_involutive (pos : SeedLayout) : ∀ (bs : List Byte) (c : CipherState),
    (c.xsteps pos (c.xsteps pos bs).1).1 = bs
  | [], _ => rfl
  | b :: bs, c => by
    simp only [xsteps_cons, xstep_fst, BitVec.xor_assoc, BitVec.xor_self, BitVec.xor_zero]
    rw [xstep_snd_eq pos (b ^^^ (c.refill pos).keystreamByte) b, xsteps_involutive pos bs]

/-! The loop of CAPPLY. -/

/-- The loop over two consecutive pieces. -/
theorem applyBytes_add (pos : SeedLayout) : ∀ (n n' addr : Nat) (c : CipherState) (m : Memory),
    applyBytes pos (n + n') addr c m =
      applyBytes pos n' (addr + n) (applyBytes pos n addr c m).1 (applyBytes pos n addr c m).2
  | 0, n', addr, c, m => by simp [applyBytes]
  | n + 1, n', addr, c, m => by
    rw [Nat.succ_add, applyBytes, applyBytes, applyBytes_add pos n n', Nat.succ_add_eq_add_succ]

theorem wf_applyBytes {size : Nat} (pos : SeedLayout) : ∀ {n addr : Nat} {c : CipherState} {m : Memory},
    addr + n ≤ size → m.wf size = true → (applyBytes pos n addr c m).2.wf size = true
  | 0, _, _, _, _, h => h
  | n + 1, addr, c, m, hle, h => by
    rw [applyBytes]
    exact wf_applyBytes pos (by omega) (wf_writeByte (by omega) h)

theorem readBytes_writeByte_of_lt {size addr a : Nat} {v : Byte} {m : Memory} (h : m.wf size = true) (ha : a < addr)
    (n : Nat) : (m.writeByte a v).readBytes addr n = m.readBytes addr n :=
  readBytes_congr fun x h1 _ => by rw [readByte_writeByte h, if_neg (by omega)]

/-- The cipher state the loop leaves is that of XSTEP over the bytes the window held. -/
theorem applyBytes_fst {size : Nat} (pos : SeedLayout) : ∀ {n addr : Nat} {c : CipherState} {m : Memory},
    addr + n ≤ size → m.wf size = true →
      (applyBytes pos n addr c m).1 = (c.xsteps pos (m.readBytes addr n)).2
  | 0, _, _, _, _, _ => rfl
  | n + 1, addr, c, m, hle, h => by
    rw [applyBytes, applyBytes_fst pos (by omega) (wf_writeByte (by omega) h),
      readBytes_writeByte_of_lt h (Nat.lt_succ_self addr), Memory.readBytes, xsteps_cons]

/-- What a byte reads as after the loop: inside the window the result of XSTEP over the bytes the window held, outside it
the old byte. -/
theorem readByte_applyBytes {size : Nat} (pos : SeedLayout) : ∀ {n addr x : Nat} {c : CipherState} {m : Memory},
    addr + n ≤ size → m.wf size = true →
      (applyBytes pos n addr c m).2.readByte x =
        if addr ≤ x ∧ x < addr + n then (c.xsteps pos (m.readBytes addr n)).1.getD (x - addr) 0 else m.readByte x
  | 0, addr, x, c, m, _, _ => by
    rw [if_neg (by omega)]
    rfl
  | n + 1, addr, x, c, m, hle, h => by
    rw [applyBytes, readByte_applyBytes pos (by omega) (wf_writeByte (by omega) h),
      readBytes_writeByte_of_lt h (Nat.lt_succ_self addr), Memory.readBytes, xsteps_cons, readByte_writeByte h]
    by_cases hx : x = addr
    · subst hx
      rw [if_neg (by omega), if_pos rfl, if_pos (by omega), Nat.sub_self, List.getD_cons_zero]
    · by_cases hin : addr + 1 ≤ x ∧ x < addr + 1 + n
      · rw [if_pos hin, if_pos (by omega), show x - addr = (x - (addr + 1)) + 1 by omega, List.getD_cons_succ]
      · rw [if_neg hin, if_neg hx, if_neg (by omega)]

/-- The window after the loop, as a list. -/
theorem readBytes_applyBytes {size : Nat} (pos : SeedLayout) {n addr : Nat} {c : CipherState} {m : Memory}
    (hle : addr + n ≤ size) (h : m.wf size = true) :
    (applyBytes pos n addr c m).2.readBytes addr n = (c.xsteps pos (m.readBytes addr n)).1 := by
  apply List.ext_getElem (by simp)
  intro i h1 h2
  have hi : i < n := by simpa using h1
  rw [← List.getD_eq_getElem _ 0 h1, ← List.getD_eq_getElem _ 0 h2, getD_readBytes _ _ _ _ hi,
    readByte_applyBytes pos hle h, if_pos (by omega), Nat.add_sub_cancel_left]

end Sys2Proof.Machine
end

