-- ==== Sys2Proof/Laws/Ops.lean ====
section
/-! SUPPORT. What the shared operations can do, said once: the checks, the frame every command runs in, the register map
and the register file. -/

namespace Sys2Proof.Machine

/-! The checks of a prologue. -/

theorem require_bind (ok : Bool) (cause : FaultCause) (info : Word64) (k : Unit → Except Raised State) :
    (require ok cause info >>= k) = if ok then k () else .error { cause := cause, info := info } := by
  unfold require
  cases ok <;> rfl

theorem requireSequence_bind (ok : Bool) (op : Word64) (k : Unit → Except Raised State) :
    (requireSequence ok op >>= k) = if ok then k () else .error { cause := .sequenceFault, info := op } :=
  require_bind ok _ op k

theorem requireWindow_bind (s : State) (base length : Word64) (k : Unit → Except Raised State) :
    (requireWindow s base length >>= k) =
      if base.toNat + length.toNat ≤ s.cfg.memSize then k ()
      else .error { cause := .accessFault, info := base } := by
  rw [requireWindow, require_bind]
  simp only [decide_eq_true_eq]

theorem requireBounds_bind (s : State) (stop : Nat) (offset : Word64) (k : Unit → Except Raised State) :
    (requireBounds s stop offset >>= k) =
      if stop ≤ s.regs.payLen.toNat then k () else .error { cause := .boundsFault, info := offset } := by
  rw [requireBounds, require_bind]
  simp only [decide_eq_true_eq]

theorem requireWritten_eq (s : State) : ∀ rs : List RWReg,
    requireWritten s rs =
      match rs.find? (fun r => !s.wv r) with
      | none => .ok ()
      | some r => .error { cause := .unwrittenRegister, info := BitVec.ofNat 64 (rwNumber r) }
  | [] => rfl
  | r :: rs => by
    rw [requireWritten, List.find?_cons]
    cases h : s.wv r
    · simp
    · simpa using requireWritten_eq s rs

theorem requireWritten_of_all {s : State} {rs : List RWReg} (h : ∀ r ∈ rs, s.wv r = true) :
    requireWritten s rs = .ok () := by
  have : rs.find? (fun r => !s.wv r) = none := by simpa [List.find?_eq_none] using h
  rw [requireWritten_eq, this]

theorem requireWritten_of_find {s : State} {rs : List RWReg} {r : RWReg}
    (h : rs.find? (fun r => !s.wv r) = some r) :
    requireWritten s rs = .error { cause := .unwrittenRegister, info := BitVec.ofNat 64 (rwNumber r) } := by
  rw [requireWritten_eq, h]

/-- The check of the written registers either passes, with all of them written, or names the first that is not. -/
theorem requireWritten_cases (s : State) (rs : List RWReg) :
    ((∀ r ∈ rs, s.wv r = true) ∧ requireWritten s rs = .ok ()) ∨
    ∃ r, rs.find? (fun r => !s.wv r) = some r ∧
      requireWritten s rs = .error { cause := .unwrittenRegister, info := BitVec.ofNat 64 (rwNumber r) } := by
  cases h : rs.find? (fun r => !s.wv r) with
  | none =>
    have h' : ∀ r ∈ rs, s.wv r = true := by simpa [List.find?_eq_none] using h
    exact .inl ⟨h', requireWritten_of_all h'⟩
  | some r => exact .inr ⟨r, rfl, requireWritten_of_find h⟩

theorem except_ok_bind (k : Unit → Except Raised State) : ((.ok () : Except Raised Unit) >>= k) = k () := rfl

theorem except_error_bind (f : Raised) (k : Unit → Except Raised State) :
    ((.error f : Except Raised Unit) >>= k) = .error f := rfl

/-! The frame every command but SRST runs in. -/

theorem runCommand_of_faulted {body : State → Except Raised State} {s : State} (h : s.status.faulted = true) :
    runCommand body s = .next s := by simp [runCommand, h]

theorem runCommand_of_ok {body : State → Except Raised State} {s t : State} (h : s.status.faulted = false)
    (hb : body s = .ok t) : runCommand body s = .next t := by simp [runCommand, h, hb]

theorem runCommand_of_error {body : State → Except Raised State} {s : State} {f : Raised}
    (h : s.status.faulted = false) (hb : body s = .error f) : runCommand body s = .next (s.raise f) := by
  simp [runCommand, h, hb]

/-- Everything a command in the frame can do: be ignored, have its effect, or raise. -/
theorem runCommand_cases (body : State → Except Raised State) (s : State) :
    (s.status.faulted = true ∧ runCommand body s = .next s) ∨
    (s.status.faulted = false ∧ ∃ t, body s = .ok t ∧ runCommand body s = .next t) ∨
    (s.status.faulted = false ∧ ∃ f, body s = .error f ∧ runCommand body s = .next (s.raise f)) := by
  cases hf : s.status.faulted
  · cases hb : body s with
    | ok t => exact .inr (.inl ⟨rfl, t, rfl, runCommand_of_ok hf hb⟩)
    | error f => exact .inr (.inr ⟨rfl, f, rfl, runCommand_of_error hf hb⟩)
  · exact .inl ⟨rfl, runCommand_of_faulted hf⟩

theorem causeCode_range (c : FaultCause) : 1 ≤ (causeCode c).toNat ∧ (causeCode c).toNat ≤ 6 := by
  cases c <;> decide

/-! The register map. -/

theorem mem_allRegs (r : Reg) : r ∈ allRegs := by
  rcases r with _ | r | r
  · decide
  · cases r
    case key i => revert i; decide
    all_goals decide
  · cases r
    case x i => revert i; decide
    case ksw i => revert i; decide
    all_goals decide

theorem regNumber_of_regOfNumber {n : Nat} {r : Reg} (h : regOfNumber n = some r) : regNumber r = n := by
  have := List.find?_some h
  simpa using this

theorem regOfNumber_regNumber_all : ∀ r ∈ allRegs, regOfNumber (regNumber r) = some r := by decide +kernel

@[simp] theorem regOfNumber_regNumber (r : Reg) : regOfNumber (regNumber r) = some r :=
  regOfNumber_regNumber_all r (mem_allRegs r)

/-- A number names a register exactly when it is that register's number. -/
theorem regOfNumber_eq_some {n : Nat} {r : Reg} : regOfNumber n = some r ↔ n = regNumber r :=
  ⟨fun h => (regNumber_of_regOfNumber h).symm, fun h => h ▸ regOfNumber_regNumber r⟩

theorem regOfNumber_rwNumber (r : RWReg) : regOfNumber (rwNumber r) = some (.rw r) := regOfNumber_regNumber (.rw r)

theorem regOfNumber_roNumber (r : ROReg) : regOfNumber (roNumber r) = some (.ro r) := regOfNumber_regNumber (.ro r)

theorem wvIndex_lt (r : RWReg) : wvIndex r < 16 := by
  cases r
  case key i => simp only [wvIndex]; omega
  all_goals decide

theorem wvIndex_injective {r r' : RWReg} (h : wvIndex r = wvIndex r') : r = r' := by
  cases r <;> cases r' <;> simp only [wvIndex] at h <;> first | rfl | (congr 1; omega)

/-- A host write sets the register's written-valid bit and no other. -/
theorem writeRW_wv (s : State) (r r' : RWReg) (v : Word64) :
    (s.writeRW r v).wv r' = (s.wv r' || decide (r' = r)) := by
  have hr := wvIndex_lt r'
  simp only [State.wv, State.writeRW_wvalid, BitVec.getLsbD_or, BitVec.getLsbD_shiftLeft, hr, decide_true,
    Bool.true_and]
  congr 1
  by_cases h : r' = r
  · subst h; simp
  · have hne : wvIndex r' ≠ wvIndex r := fun hh => h (wvIndex_injective hh)
    rcases Nat.lt_or_gt_of_ne hne with hlt | hgt
    · simp [h, hlt]
    · simp [h, show ¬(wvIndex r' < wvIndex r) by omega, show wvIndex r' - wvIndex r ≠ 0 by omega]

/-- What an `RW` register reads as after a host write: the value truncated to its width, or the old value of another
register. -/
theorem read_write (h : HostRegs) (r r' : RWReg) (v : Word64) :
    (h.write r v).read r' = if r' = r then BitVec.ofNat 64 (v.toNat % 2 ^ rwWidth r) else h.read r' := by
  cases r
  case key i =>
    cases r'
    case key j =>
      by_cases hij : j = i
      · subst hij; simp [HostRegs.write, HostRegs.read, rwWidth, BitVec.toNat_eq]
      · have : (i : Nat) ≠ j := fun hh => hij (Fin.ext hh.symm)
        simp [HostRegs.write, HostRegs.read, hij, this]
    all_goals rfl
  all_goals
    cases r' <;> simp [HostRegs.write, HostRegs.read, rwWidth, BitVec.toNat_eq] <;>
      exact (Nat.mod_eq_of_lt v.isLt).symm

end Sys2Proof.Machine
end

