-- ==== Sys2Proof/Laws/Commands.lean ====
section
/-! SUPPORT. Everything a command can do, said once for each: where its body answers a state, which checks passed and what
that state is. -/

namespace Sys2Proof.Machine

theorem requireWritten_bind_eq_ok {s t : State} {rs : List RWReg} {k : Unit → Except Raised State} :
    (requireWritten s rs >>= k) = .ok t ↔ (∀ r ∈ rs, s.wv r = true) ∧ k () = .ok t := by
  rcases requireWritten_cases s rs with ⟨h, he⟩ | ⟨r, hf, he⟩
  · rw [he, except_ok_bind]
    exact ⟨fun hk => ⟨h, hk⟩, fun hk => hk.2⟩
  · rw [he, except_error_bind]
    have hr := List.find?_some hf
    refine ⟨fun hk => by simp at hk, fun hk => ?_⟩
    rw [hk.1 r (List.mem_of_find?_eq_some hf)] at hr
    simp at hr

theorem require_bind_eq_ok {t : State} {ok : Bool} {c : FaultCause} {i : Word64} {k : Unit → Except Raised State} :
    (require ok c i >>= k) = .ok t ↔ ok = true ∧ k () = .ok t := by
  rw [require_bind]
  cases ok <;> simp

theorem requireSequence_bind_eq_ok {t : State} {ok : Bool} {i : Word64} {k : Unit → Except Raised State} :
    (requireSequence ok i >>= k) = .ok t ↔ ok = true ∧ k () = .ok t := require_bind_eq_ok

theorem requireWindow_bind_eq_ok {s t : State} {b l : Word64} {k : Unit → Except Raised State} :
    (requireWindow s b l >>= k) = .ok t ↔ b.toNat + l.toNat ≤ s.cfg.memSize ∧ k () = .ok t := by
  rw [requireWindow_bind]
  split <;> simp_all

theorem requireBounds_bind_eq_ok {s t : State} {n : Nat} {o : Word64} {k : Unit → Except Raised State} :
    (requireBounds s n o >>= k) = .ok t ↔ n ≤ s.regs.payLen.toNat ∧ k () = .ok t := by
  rw [requireBounds_bind]
  split <;> simp_all

theorem pure_eq_ok {s t : State} : (pure s : Except Raised State) = .ok t ↔ t = s :=
  ⟨fun h => by cases h; rfl, fun h => by rw [h]; rfl⟩

theorem cinitBody_eq_ok {s t : State} : cinitBody s = .ok t ↔
    (∀ r ∈ cinitRegs, s.wv r = true) ∧
      t = { s with
        cipher := s.cipher.seed s.cfg.pos s.regs.key s.regs.len
        status := s.status.afterCinit } := by
  unfold cinitBody
  rw [requireWritten_bind_eq_ok, pure_eq_ok]

theorem cxorbBody_eq_ok {s t : State} : cxorbBody s = .ok t ↔
    s.status.seeded = true ∧ s.wv .din = true ∧
      t = { s with
        dout := (s.cipher.xstep s.cfg.pos s.regs.din).1
        cipher := (s.cipher.xstep s.cfg.pos s.regs.din).2 } := by
  unfold cxorbBody
  rw [requireSequence_bind_eq_ok, requireWritten_bind_eq_ok, pure_eq_ok]
  simp

theorem capplyBody_eq_ok {s t : State} : capplyBody s = .ok t ↔
    s.status.seeded = true ∧ s.wv .bufBase = true ∧ s.wv .bufCnt = true ∧
      s.regs.bufBase.toNat + s.regs.bufCnt.toNat ≤ s.cfg.memSize ∧
      t = { s with
        cipher := (applyBytes s.cfg.pos s.regs.bufCnt.toNat s.regs.bufBase.toNat s.cipher s.mem).1
        mem := (applyBytes s.cfg.pos s.regs.bufCnt.toNat s.regs.bufBase.toNat s.cipher s.mem).2 } := by
  unfold capplyBody
  rw [requireSequence_bind_eq_ok, requireWritten_bind_eq_ok, requireWindow_bind_eq_ok, pure_eq_ok]
  simp [and_assoc]

theorem rdcrhBody_eq_ok {s t : State} : rdcrhBody s = .ok t ↔
    s.wv .payBase = true ∧ s.wv .payLen = true ∧
      s.regs.payBase.toNat + s.regs.payLen.toNat ≤ s.cfg.memSize ∧
      8 + (s.payField 4).toNat ≤ s.regs.payLen.toNat ∧
      t = { s with
        crh := { max := s.payField 0, csz := s.payField 4 }
        status := s.status.afterRdcrh } := by
  unfold rdcrhBody
  rw [requireWritten_bind_eq_ok, requireWindow_bind_eq_ok, requireBounds_bind_eq_ok, requireBounds_bind_eq_ok,
    pure_eq_ok]
  simp only [List.mem_cons, List.not_mem_nil, or_false, forall_eq_or_imp, forall_eq, and_assoc]
  constructor
  · rintro ⟨h1, h2, h3, -, h4⟩
    exact ⟨h1, h2, h3, h4⟩
  · rintro ⟨h1, h2, h3, h4, h5⟩
    exact ⟨h1, h2, h3, by omega, h4, h5⟩

theorem dchkBody_eq_ok {s t : State} : dchkBody s = .ok t ↔
    s.status.crhv = true ∧ s.wv .retLen = true ∧ s.regs.retLen = s.crh.max.setWidth 64 ∧
      t = { s with status := s.status.afterDchk } := by
  unfold dchkBody
  rw [requireSequence_bind_eq_ok, requireWritten_bind_eq_ok, require_bind_eq_ok, pure_eq_ok]
  simp

theorem ahdrBody_eq_ok {s t : State} : ahdrBody s = .ok t ↔
    s.wv .magic = true ∧ s.wv .payBase = true ∧ s.wv .payLen = true ∧
      s.regs.payBase.toNat + s.regs.payLen.toNat ≤ s.cfg.memSize ∧ 16 ≤ s.regs.payLen.toNat ∧
      t = { s with
        ah := s.headerFields
        rptr := 16
        ridx := 0
        status := s.status.afterAhdr (s.headerFields.magic == s.regs.magic) } := by
  unfold ahdrBody
  rw [requireWritten_bind_eq_ok, requireWindow_bind_eq_ok, requireBounds_bind_eq_ok, pure_eq_ok]
  simp [and_assoc]

/-- ANEXT past its tests either ends the walk or yields the record at RPTR. -/
theorem anextBody_eq_ok {s t : State} : anextBody s = .ok t ↔
    (s.status.arcok || s.status.notarc) = true ∧
      ((s.walkFinished = true ∧ t = { s with status := s.status.afterEnd }) ∨
        (s.walkFinished = false ∧ s.wv .payBase = true ∧ s.wv .payLen = true ∧
          s.regs.payBase.toNat + s.regs.payLen.toNat ≤ s.cfg.memSize ∧
          s.rptr.toNat + 16 + (s.recordFields s.rptr.toNat).nlen.toNat ≤ s.regs.payLen.toNat ∧
          s.ah.doff.toNat + (s.recordFields s.rptr.toNat).off.toNat + (s.recordFields s.rptr.toNat).size.toNat
            ≤ s.regs.payLen.toNat ∧
          t = { s with
            fr := s.recordFields s.rptr.toNat
            rptr := BitVec.ofNat 64 (s.rptr.toNat + 16 + (s.recordFields s.rptr.toNat).nlen.toNat)
            ridx := s.ridx + 1
            status := s.status.afterRecord })) := by
  unfold anextBody
  rw [requireSequence_bind_eq_ok]
  cases hw : s.walkFinished
  · simp only [Bool.false_eq_true, if_false, requireWritten_bind_eq_ok, requireWindow_bind_eq_ok,
      requireBounds_bind_eq_ok, pure_eq_ok, false_and, false_or, true_and,
      List.mem_cons, List.not_mem_nil, or_false, forall_eq_or_imp, forall_eq, and_assoc]
    constructor
    · rintro ⟨h0, h1, h2, h3, -, h4⟩
      exact ⟨h0, h1, h2, h3, h4⟩
    · rintro ⟨h0, h1, h2, h3, h4, h5⟩
      exact ⟨h0, h1, h2, h3, by omega, h4, h5⟩
  · simp [pure_eq_ok]

/-- The body of each command but SRST. -/
def commandBody : Instr → State → Except Raised State
  | .cinit => cinitBody
  | .cxorb => cxorbBody
  | .capply => capplyBody
  | .rdcrh => rdcrhBody
  | .dchk => dchkBody
  | .ahdr => ahdrBody
  | .anext => anextBody
  | .srst => fun s => .ok s.resetBlock

/-- Every command but SRST runs its body in the one frame. -/
theorem exec_eq_runCommand {i : Instr} (h : i ≠ .srst) (s : State) : exec i s = runCommand (commandBody i) s := by
  cases i <;> first | rfl | exact absurd rfl h

/-- Everything a command but SRST can do. -/
theorem exec_cases {i : Instr} (h : i ≠ .srst) (s : State) :
    (s.status.faulted = true ∧ exec i s = .next s) ∨
    (s.status.faulted = false ∧ ∃ t, commandBody i s = .ok t ∧ exec i s = .next t) ∨
    (s.status.faulted = false ∧ ∃ f, commandBody i s = .error f ∧ exec i s = .next (s.raise f)) := by
  rw [exec_eq_runCommand h]
  exact runCommand_cases _ s

/-! One step. -/

theorem step_nil {s : State} (h : s.pending = []) : step s = .next s := by simp [step, h]

theorem step_cons {s : State} {a : HostAccess} {rest : List HostAccess} (h : s.pending = a :: rest) :
    step s = serve a { s with pending := rest } := by simp [step, h]

theorem serve_wr_cmd (w : Word64) (s : State) : serve (.wr 0x00 w) s = issueCommand w s := by
  simp only [serve, hostWrite, show regOfNumber 0x00 = some .cmd from rfl]

theorem serve_wr_rw (r : RWReg) (v : Word64) (s : State) : serve (.wr (rwNumber r) v) s = .next (s.writeRW r v) := by
  simp only [serve, hostWrite, regOfNumber_rwNumber]

theorem serve_wr_ro (r : ROReg) (v : Word64) (s : State) : serve (.wr (roNumber r) v) s = .next s := by
  simp only [serve, hostWrite, regOfNumber_roNumber]

/-- Everything serving a host access can do. -/
theorem serve_cases (a : HostAccess) (s : State) :
    (∃ w i, a = .wr 0x00 w ∧ decode w = .ok i ∧ serve a s = exec i s) ∨
    (∃ w why, a = .wr 0x00 w ∧ decode w = .error why ∧ s.status.faulted = true ∧ serve a s = .next s) ∨
    (∃ w why, a = .wr 0x00 w ∧ decode w = .error why ∧ s.status.faulted = false ∧
      serve a s = .next (s.raise { cause := .illegalCommand, info := w })) ∨
    (∃ r v, a = .wr (rwNumber r) v ∧ serve a s = .next (s.writeRW r v)) ∨
    (∃ n v, a = .wr n v ∧ serve a s = .next s) ∨
    (∃ n, a = .rd n ∧ serve a s = .next (s.reply (.register (s.readNumber n)))) ∨
    (∃ addr bs, a = .memStore addr bs ∧ addr + bs.length ≤ s.cfg.memSize ∧
      serve a s = .next { s with mem := s.mem.writeBytes addr bs }) ∨
    (∃ addr n, a = .memLoad addr n ∧ addr + n ≤ s.cfg.memSize ∧
      serve a s = .next (s.reply (.bytes (s.mem.readBytes addr n)))) ∨
    (∃ addr n, ((∃ bs, a = .memStore addr bs ∧ bs.length = n) ∨ a = .memLoad addr n) ∧
      s.cfg.memSize < addr + n ∧ serve a s = .fault (.hostAddressOutsideMem addr n)) ∨
    (a = .hardReset ∧ serve a s = .next s.resetBlock) := by
  cases a with
  | wr n v =>
    cases hn : regOfNumber n with
    | none => exact .inr (.inr (.inr (.inr (.inl ⟨n, v, rfl, by simp only [serve, hostWrite, hn]⟩))))
    | some r =>
      obtain rfl := regOfNumber_eq_some.1 hn
      match r with
      | .cmd =>
        have hserve : serve (.wr (regNumber .cmd) v) s = issueCommand v s := serve_wr_cmd v s
        cases hd : decode v with
        | ok i => exact .inl ⟨v, i, rfl, hd, by rw [hserve, issueCommand, hd]⟩
        | error why =>
          cases hf : s.status.faulted
          · exact .inr (.inr (.inl ⟨v, why, rfl, hd, rfl, by simp [hserve, issueCommand, hd, hf]⟩))
          · exact .inr (.inl ⟨v, why, rfl, hd, rfl, by simp [hserve, issueCommand, hd, hf]⟩)
      | .rw r => exact .inr (.inr (.inr (.inl ⟨r, v, rfl, serve_wr_rw r v s⟩)))
      | .ro r => exact .inr (.inr (.inr (.inr (.inl ⟨_, v, rfl, serve_wr_ro r v s⟩))))
  | rd n => exact .inr (.inr (.inr (.inr (.inr (.inl ⟨n, rfl, rfl⟩)))))
  | memStore addr bs =>
    by_cases h : addr + bs.length ≤ s.cfg.memSize
    · exact .inr (.inr (.inr (.inr (.inr (.inr (.inl ⟨addr, bs, rfl, h, by
        simp [serve, HostAccess.wellFormed, h]⟩))))))
    · exact .inr (.inr (.inr (.inr (.inr (.inr (.inr (.inr (.inl ⟨addr, bs.length, .inl ⟨bs, rfl, rfl⟩, by omega, by
        simp [serve, HostAccess.wellFormed, h]⟩))))))))
  | memLoad addr n =>
    by_cases h : addr + n ≤ s.cfg.memSize
    · exact .inr (.inr (.inr (.inr (.inr (.inr (.inr (.inl ⟨addr, n, rfl, h, by
        simp [serve, HostAccess.wellFormed, h]⟩)))))))
    · exact .inr (.inr (.inr (.inr (.inr (.inr (.inr (.inr (.inl ⟨addr, n, .inr rfl, by omega, by
        simp [serve, HostAccess.wellFormed, h]⟩))))))))
  | hardReset => exact .inr (.inr (.inr (.inr (.inr (.inr (.inr (.inr (.inr ⟨rfl, rfl⟩))))))))

end Sys2Proof.Machine
end

