-- ==== Sys2Proof/Laws/PerInstr.lean ====
section
/-! SUPPORT. What holds of every command as syntax, one lemma per constructor of Instr. -/

namespace Sys2Proof.Laws.Encoding

/-- The command is well formed, its word has a legal opcode and a zero upper part, and its word decodes to it
(30_encoding.md R70 to R73). -/
def Statement (i : Instr) : Prop :=
  i.wellFormed = true ∧ (CommandWord.ofWord (encode i)).wellFormed = true ∧ decode (encode i) = .ok i

theorem cinit : Statement .cinit := by unfold Statement; decide
theorem cxorb : Statement .cxorb := by unfold Statement; decide
theorem capply : Statement .capply := by unfold Statement; decide
theorem rdcrh : Statement .rdcrh := by unfold Statement; decide
theorem dchk : Statement .dchk := by unfold Statement; decide
theorem ahdr : Statement .ahdr := by unfold Statement; decide
theorem anext : Statement .anext := by unfold Statement; decide
theorem srst : Statement .srst := by unfold Statement; decide

end Sys2Proof.Laws.Encoding
end

