-- ==== Sys2Proof/Tests/Slice0.lean ====
section
/-! SUPPORT. Tests from the spec's own vectors (95_test_vectors.md V1 to V17), the smoke tests of the checks on syntax, and
for every statement with hypotheses a state that meets them. -/

namespace Sys2Proof.Tests

open Sys2Proof Sys2Proof.Machine

/-! Helpers. -/

/-- The next state of an outcome, or a given state where there is none. -/
def nextOr (o : Host.Outcome State Fault Refusal) (d : State) : State :=
  match o with
  | .next t => t
  | .fault _ => d
  | .refused _ => d

/-- Whether an outcome is a next state. -/
def isNext (o : Host.Outcome State Fault Refusal) : Bool :=
  match o with
  | .next _ => true
  | .fault _ => false
  | .refused _ => false

/-- The state after one command. -/
def afterExec (i : Instr) (s : State) : State := nextOr (exec i s) s

/-- The state after the block serves one host access. -/
def afterAccess (a : HostAccess) (s : State) : State :=
  nextOr (step { s with pending := [a] }) s

theorem eq_next {o : Host.Outcome State Fault Refusal} (d : State) (h : isNext o = true) : o = .next (nextOr o d) := by
  cases o with
  | next _ => rfl
  | fault _ => cases h
  | refused _ => cases h

/-- The test key (95_test_vectors.md, conventions). -/
def testKey : KeyWords :=
  #v[0x03020100, 0x07060504, 0x0B0A0908, 0x0F0E0D0C, 0x13121110, 0x17161514, 0x1B1A1918, 0x1F1E1D1C]

/-- The payload `PT` of V12. -/
def testPayload : List Byte :=
  [0x78, 0x56, 0x34, 0x12, 0xEF, 0xBE, 0xAD, 0xDE, 0x02, 0x00, 0x00, 0x00, 0x3E, 0x00, 0x00, 0x00,
   0xAA, 0xAA, 0xAA, 0xAA, 0x05, 0x00, 0x00, 0x00, 0x00, 0x00, 0x00, 0x00, 0x05, 0x00, 0x00, 0x00,
   0x61, 0x2E, 0x74, 0x78, 0x74, 0xBB, 0xBB, 0xBB, 0xBB, 0x09, 0x00, 0x00, 0x00, 0x05, 0x00, 0x00,
   0x00, 0x0A, 0x00, 0x00, 0x00, 0x73, 0x75, 0x62, 0x2F, 0x62, 0x2E, 0x62, 0x69, 0x6E, 0x68, 0x65,
   0x6C, 0x6C, 0x6F, 0x00, 0x01, 0x02, 0x03, 0x04, 0x05, 0x06, 0x07, 0x08, 0x09]

/-- Every register written, `PT` at 0x100. -/
def ready : State :=
  { State.reset with
    wvalid := 0xFFFF
    regs :=
      { len := 65, key := testKey, bufBase := 0, bufCnt := 65, din := 0, magic := 0x12345678, payBase := 0x100,
        payLen := 77, retLen := 77 }
    mem := Memory.writeBytes [] 0x100 testPayload }

/-- `ready` with SEEDED set and the seed of V5. -/
def seeded : State :=
  { ready with cipher := ready.cipher.seed .rows testKey 65, status := { ready.status with seeded := true } }

/-- `ready` with RPTR, RIDX and the header as V12 gives them after AHDR. -/
def walking : State :=
  { ready with
    ah := { magic := 0x12345678, rsvd := 0xDEADBEEF, count := 2, doff := 62 }
    rptr := 16
    status := { ready.status with arcok := true } }

/-- `walking` past the first record of V12. -/
def walkingSecond : State :=
  { walking with
    rptr := 37
    ridx := 1
    fr := { unk := 0xAAAAAAAA, nlen := 5, off := 0, size := 5, namep := 32, datap := 62 }
    status := { walking.status with recv := true } }

/-- `ready` with the payload of V11 at 0x200. -/
def region : State :=
  { ready with
    mem := Memory.writeBytes [] 0x200 [0x4D, 0x00, 0x00, 0x00, 0x28, 0x00, 0x00, 0x00]
    regs := { ready.regs with payBase := 0x200, payLen := 48 } }

/-- `region` after the RDCRH of V11. -/
def regionRead : State :=
  { region with crh := { max := 77, csz := 40 }, status := { region.status with crhv := true } }

/-- Reset after fault V16 a. -/
def faulted : State :=
  { State.reset with fcause := 4, finfo := 3, status := { State.reset.status with faulted := true } }

/-- A state with one host access waiting. -/
def waiting (s : State) (a : HostAccess) : State := { s with pending := [a] }

/-! The checks on syntax. -/

theorem test_wellFormed_refuses_nonzero_upper : ({ op := 0x01, zero := 1 } : CommandWord).wellFormed = false := by decide
theorem test_wellFormed_refuses_reserved_opcode : ({ op := 0x04, zero := 0 } : CommandWord).wellFormed = false := by decide
theorem test_wellFormed_accepts_assigned : ({ op := 0x21, zero := 0 } : CommandWord).wellFormed = true := by decide
theorem test_wellFormed_refuses_large_memory :
    ({ memSize := 2 ^ 64 + 1, pos := .rows, fieldLE := true } : Config).wellFormed = false := by decide
theorem test_wellFormed_refuses_store_outside :
    (HostAccess.memStore 0xFFF [0, 0]).wellFormed Config.atReset = false := by decide
theorem test_wellFormed_refuses_load_outside : (HostAccess.memLoad 0x1000 1).wellFormed Config.atReset = false := by decide

/-! Decoding: the words of 30_encoding.md R71, written out. -/

theorem test_decode_cinit : decode 0b00000001 = .ok .cinit := by decide
theorem test_decode_cxorb : decode 0b00000010 = .ok .cxorb := by decide
theorem test_decode_capply : decode 0b00000011 = .ok .capply := by decide
theorem test_decode_rdcrh : decode 0b00010000 = .ok .rdcrh := by decide
theorem test_decode_dchk : decode 0b00010001 = .ok .dchk := by decide
theorem test_decode_ahdr : decode 0b00100000 = .ok .ahdr := by decide
theorem test_decode_anext : decode 0b00100001 = .ok .anext := by decide
theorem test_decode_srst : decode 0b11111111 = .ok .srst := by decide
/-- V16 j, l and u. -/
theorem test_decode_illegal :
    decode 0 = .error (.reservedOpcode 0) ∧ decode 0x101 = .error .nonzeroUpper ∧ decode 0x1FF = .error .nonzeroUpper ∧
    decode 0x8000000000000001 = .error .nonzeroUpper := by decide
theorem test_decodeTableWord : decodeTableWord 64 0x21 = some .anext ∧ decodeTableWord 8 0xFF = some .srst := by decide
/-- R168 on the first step after reset: the word is fetched and run. -/
theorem test_withFetchWord : (nextOr (step (State.reset.withFetchWord 64 0x03)) State.reset).finfo = 3 := by
  decide +kernel

/-! The spec's vectors. -/

/-- V1. -/
theorem test_primitives :
    le32 0x65 0x78 0x70 0x61 = 0x61707865 ∧ (0x13305172 : Word).rotateLeft 16 = 0x51721330 ∧
    (List.range 4).map (fun j => byteOf j 0x9C6B2626) = [0x26, 0x26, 0x6B, 0x9C] ∧
    constantWords = #v[0x61707865, 0x3320646E, 0x79622D32, 0x6B206574] := by decide
/-- V2. -/
theorem test_quarterRound :
    quarterRound 0x11111111 0x01020304 0x9B8D6F43 0x01234567 = (0xEA2A92F4, 0xCB1CF8CE, 0x4581472E, 0x5881C4BB) := by
  decide +kernel
/-- V3a: the output words of the block function. -/
theorem test_blockWords :
    blockWords
      #v[0x61707865, 0x3320646E, 0x79622D32, 0x6B206574, 0x03020100, 0x07060504, 0x0B0A0908, 0x0F0E0D0C, 0x13121110,
        0x17161514, 0x1B1A1918, 0x1F1E1D1C, 0x00000001, 0x09000000, 0x4A000000, 0x00000000] =
      #v[0xE4E7F110, 0x15593BD1, 0x1FDD0F50, 0xC47120A3, 0xC7F4D1C7, 0x0368C033, 0x9AAA2204, 0x4E6CD4C3, 0x466482D2,
        0x09AA9F07, 0x05D7C214, 0xA2028BD9, 0xD19C12B5, 0xB94E16DE, 0xE883D0CB, 0x4E3C50A2] := by decide +kernel
/-- V10: the carry from X[12] into X[13], and the wrap. -/
theorem test_counter_carry :
    let x := (seedWords .rows testKey 65).set 12 0xFFFFFFFF
    let y := (x.set 13 0xFFFFFFFF)
    withCounter .rows x (blockCounter .rows x + 1) = (x.set 12 0).set 13 0x42 ∧
    withCounter .rows y (blockCounter .rows y + 1) = (y.set 12 0).set 13 0 := by decide +kernel
/-- V15: the set-aside layout. -/
theorem test_setAside_seed :
    seedWords .salsaDiagonal testKey 65 =
      #v[0x61707865, 0x03020100, 0x07060504, 0x0B0A0908, 0x0F0E0D0C, 0x3320646E, 0, 0x41, 0x42, 0xFFFFFFBE, 0x79622D32,
        0x13121110, 0x17161514, 0x1B1A1918, 0x1F1E1D1C, 0x6B206574] := by decide +kernel
/-- V4: the whole state for `LEN = 65`. -/
theorem test_cinit_seed :
    (afterExec .cinit ready).cipher.x =
      #v[0x61707865, 0x3320646E, 0x79622D32, 0x6B206574, 0x03020100, 0x07060504, 0x0B0A0908, 0x0F0E0D0C, 0x13121110,
        0x17161514, 0x1B1A1918, 0x1F1E1D1C, 0, 0x41, 0x42, 0xFFFFFFBE] := by decide +kernel
/-- V4b and V16 f. -/
theorem test_cinit_wrap_and_unwritten :
    (controlWords 0xFFFFFFFF = #v[0, 0xFFFFFFFF, 0, 0]) ∧ (controlWords 0x100000005 = #v[0, 5, 6, 0xFFFFFFFA]) ∧
    (afterExec .cinit State.reset).fcause = 5 ∧ (afterExec .cinit State.reset).finfo = 0x08 := by decide +kernel
/-- V5: keystream byte 0 of block 0; V16 c: the sequence is tested before the written registers. -/
theorem test_cxorb :
    (afterExec .cxorb seeded).dout = 0x26 ∧ (afterExec .cxorb seeded).cipher.cur = 1 ∧
    (afterExec .cxorb State.reset).fcause = 4 ∧ (afterExec .cxorb State.reset).finfo = 2 := by decide +kernel
/-- V5: 65 zero bytes; byte 63 is the last of block 0 and byte 64 the first of block 1. -/
theorem test_capply :
    let t := afterExec .capply seeded
    t.mem.readByte 0 = 0x26 ∧ t.mem.readByte 63 = 0xDF ∧ t.mem.readByte 64 = 0x77 ∧ t.mem.readByte 65 = 0 ∧
    t.cipher.x[12] = 2 ∧ t.cipher.x[13] = 0x41 ∧ t.cipher.cur = 1 := by decide +kernel
/-- V16 m. -/
theorem test_capply_window :
    afterExec .capply { seeded with regs := { seeded.regs with bufBase := 0xFF0, bufCnt := 0x11 } } =
      { seeded with
        regs := { seeded.regs with bufBase := 0xFF0, bufCnt := 0x11 }
        fcause := 3
        finfo := 0xFF0
        status := { seeded.status with faulted := true } } := by decide +kernel
/-- V11. -/
theorem test_rdcrh : afterExec .rdcrh region = regionRead := by decide +kernel
/-- V11: `PAY_LEN = 47`. -/
theorem test_rdcrh_bounds :
    let t := afterExec .rdcrh { region with regs := { region.regs with payLen := 47 } }
    t.fcause = 2 ∧ t.finfo = 4 ∧ t.status.crhv = false := by decide +kernel
/-- V11: a match, STATUS 0x00C0. -/
theorem test_dchk_match : (afterExec .dchk regionRead).readNumber 0x01 = 0xC0 := by decide +kernel
/-- V11: the comparison is on 64 bits. -/
theorem test_dchk_mismatch :
    let t := afterExec .dchk { regionRead with regs := { regionRead.regs with retLen := 0x10000004D } }
    t.fcause = 1 ∧ t.finfo = 0x10000004D ∧ t.status.dcok = false := by decide +kernel
/-- V12. -/
theorem test_ahdr_match : afterExec .ahdr ready = walking := by decide +kernel
/-- V13: STATUS 0x0008 and no fault. -/
theorem test_ahdr_mismatch :
    let t := afterExec .ahdr { ready with regs := { ready.regs with magic := 0x78563412 } }
    t.ah = walking.ah ∧ t.readNumber 0x01 = 8 ∧ t.fcause = 0 := by decide +kernel
/-- V12: the first record. -/
theorem test_anext_first : afterExec .anext walking = walkingSecond := by decide +kernel
/-- V12: the second record ends exactly at the end of the payload; V12 with `PAY_LEN = 76`: FINFO 45. -/
theorem test_anext_second :
    let t := afterExec .anext walkingSecond
    let u := afterExec .anext { walkingSecond with regs := { walkingSecond.regs with payLen := 76 } }
    t.fr = { unk := 0xBBBBBBBB, nlen := 9, off := 5, size := 10, namep := 53, datap := 67 } ∧ t.rptr = 62 ∧ t.ridx = 2 ∧
    u.fcause = 2 ∧ u.finfo = 45 ∧ u.rptr = 37 := by decide +kernel
/-- V16 v. -/
theorem test_srst : afterExec .srst faulted = State.reset := by decide +kernel
/-- V16 t: register writes work while FAULTED is 1. -/
theorem test_write_while_faulted :
    (afterAccess (.wr 0x10 5) faulted).readNumber 0x10 = 5 ∧ (afterAccess (.wr 0x10 5) faulted).readNumber 0x04 = 2 := by
  decide +kernel
/-- V17. -/
theorem test_write_truncates :
    (afterAccess (.wr 0x10 0x123456789) State.reset).readNumber 0x10 = 0x23456789 ∧
    (afterAccess (.wr 0x1A 0x1FF) State.reset).readNumber 0x1A = 0xFF ∧
    (afterAccess (.wr 0x01 0xFFFF) State.reset).readNumber 0x01 = 0 ∧
    (afterAccess (.wr 0x05 1) State.reset).readNumber 0x05 = 0 ∧
    (afterAccess (.wr 0x08 0) State.reset).readNumber 0x04 = 1 := by decide +kernel
/-- 45_system_ops.md R150: the memory after reset is in canonical form. -/
theorem test_reset_memory_wf : State.reset.mem.wf State.reset.cfg.memSize = true := by decide

/-! Witnesses: for every statement of the certificate with hypotheses, in the file's order, states and operands that meet all
of them together, each clause at a boundary of its range. -/

/-- The registers of CINIT, as the statements list them. -/
def cinitList : List RWReg := [.len, .key 0, .key 1, .key 2, .key 3, .key 4, .key 5, .key 6, .key 7]

/-- One register of `ready` marked as not written. -/
def unwritten (s : State) (mask : BitVec 16) : State := { s with wvalid := mask }

theorem witness_DecodeSelectsExactlyTheMatchWord :
    let words : List Word64 := [0x01, 0x02, 0x03, 0x10, 0x11, 0x20, 0x21, 0xFF]
    (0x00 : Word64) ∉ words ∧ (0x04 : Word64) ∉ words ∧ (0x101 : Word64) ∉ words := by decide
theorem witness_DecodeAndEncodeAgree : Instr.cinit.wellFormed = true ∧ Instr.srst.wellFormed = true := by decide
theorem witness_StepRunsTheDecodedCommand :
    (waiting seeded (.wr 0x00 0x02)).pending = .wr 0x00 0x02 :: [] ∧ decode 0x02 = .ok .cxorb := by decide
theorem witness_IllegalWordRaisesIllegalCommand :
    (waiting ready (.wr 0x00 0x100)).pending = .wr 0x00 0x100 :: [] ∧
    (waiting ready (.wr 0x00 0x100)).status.faulted = false ∧
    (0x100 : Word64) ∉ ([0x01, 0x02, 0x03, 0x10, 0x11, 0x20, 0x21, 0xFF] : List Word64) := by decide
theorem witness_FaultedBlockServesOnlyRegisters :
    faulted.status.faulted = true ∧
    ((waiting faulted (.wr 0x00 0xFE)).pending = .wr 0x00 0xFE :: [] ∧ (0xFE : Word64) ≠ 0xFF) ∧
    (waiting faulted (.rd 0x02)).pending = .rd 0x02 :: [] ∧
    (waiting faulted (.wr 0x43 1)).pending = .wr (rwNumber .retLen) 1 :: [] ∧
    ((waiting faulted (.memLoad 0xFFF 1)).pending = .memLoad 0xFFF 1 :: [] ∧ 0xFFF + 1 ≤ faulted.cfg.memSize) := by decide
theorem witness_RegisterAccessOperations :
    (waiting ready (.wr 0x1A 0x1FF)).pending = .wr (rwNumber .din) 0x1FF :: [] ∧
    (waiting ready (.wr 0x00 0x01)).pending = .wr 0x00 0x01 :: [] ∧
    ((waiting ready (.wr 0x01 1)).pending = .wr 0x01 1 :: [] ∧ (0x01 : Nat) ≠ 0x00 ∧ ∀ r ∈ allRW, 0x01 ≠ rwNumber r) ∧
    (waiting ready (.rd 0x5D)).pending = .rd 0x5D :: [] ∧
    (waiting ready (.wr 0x08 0)).pending = .wr 0x08 0 :: [] ∧
    (waiting ready (.wr 0x17 1)).pending = .wr (0x10 + (7 : Fin 8).val) 1 :: [] ∧
    (waiting ready (.wr 0x18 1)).pending = .wr 0x18 1 :: [] ∧ (waiting ready (.wr 0x19 1)).pending = .wr 0x19 1 :: [] ∧
    (waiting ready (.wr 0x40 1)).pending = .wr 0x40 1 :: [] ∧ (waiting ready (.wr 0x41 1)).pending = .wr 0x41 1 :: [] ∧
    (waiting ready (.wr 0x42 1)).pending = .wr 0x42 1 :: [] ∧ (waiting ready (.wr 0x43 1)).pending = .wr 0x43 1 :: [] := by
  decide
/-- The list `allRW` that the previous witness runs through has every `RW` register. -/
theorem witness_RegisterAccessOperations_all : ∀ r : RWReg, 0x01 ≠ rwNumber r := by
  intro r
  cases r with
  | key i => exact fun h => by simp only [rwNumber] at h; omega
  | _ => decide
theorem witness_ReadsAreZeroExtended : (∀ r, 0x5E ≠ rwNumber r) ∧ (∀ r, 0x5E ≠ roNumber r) ∧ 16 ≤ 16 := by
  refine ⟨fun r => ?_, fun r => ?_, by decide⟩
  · cases r with
    | key i => exact fun h => by simp only [rwNumber] at h; omega
    | _ => decide
  · cases r with
    | x i => exact fun h => by simp only [roNumber] at h; omega
    | ksw i => exact fun h => by simp only [roNumber] at h; omega
    | _ => decide
theorem witness_RegisterMapNumbers :
    ∀ n ∈ [0x05, 0x07, 0x09, 0x0F, 0x1D, 0x1F, 0x44, 0x47, 0x4A, 0x4F, 0x56, 0x57, 0x5E],
      (0x05 ≤ n ∧ n ≤ 0x07) ∨ (0x09 ≤ n ∧ n ≤ 0x0F) ∨ (0x1D ≤ n ∧ n ≤ 0x1F) ∨ (0x44 ≤ n ∧ n ≤ 0x47) ∨
        (0x4A ≤ n ∧ n ≤ 0x4F) ∨ n = 0x56 ∨ n = 0x57 ∨ 0x5E ≤ n := by decide
theorem witness_StatusReadsItsFlags : 8 ≤ 8 := by decide
theorem witness_HostMemoryAccess :
    ready.mem.wf ready.cfg.memSize = true ∧
    ((waiting ready (.memStore 0xFFE [1, 2])).pending = .memStore 0xFFE [1, 2] :: [] ∧
      0xFFE + [1, 2].length ≤ ready.cfg.memSize) ∧
    ((waiting ready (.memStore 0xFFF [1, 2])).pending = .memStore 0xFFF [1, 2] :: [] ∧
      ¬(0xFFF + [1, 2].length ≤ ready.cfg.memSize)) ∧
    ((waiting ready (.memLoad 0x1000 0)).pending = .memLoad 0x1000 0 :: [] ∧ 0x1000 + 0 ≤ ready.cfg.memSize) ∧
    ((waiting ready (.memLoad 0x1000 1)).pending = .memLoad 0x1000 1 :: [] ∧ ¬(0x1000 + 1 ≤ ready.cfg.memSize)) ∧
    ((waiting ready (.memStore 0x1001 [])).pending = .memStore 0x1001 [] :: [] ∧
      ¬(0x1001 + ([] : List Byte).length ≤ ready.cfg.memSize)) := by
  decide +kernel
theorem witness_IdleBlockWaits : State.reset.pending = [] := by decide
theorem witness_ResetInputActsAsSrst : (waiting faulted .hardReset).pending = .hardReset :: [] := by decide
theorem witness_ResetStateReadsAsTheTable : (0x1B : Nat) ≠ 0x1C ∧ (0x1D : Nat) ≠ 0x1C := by decide

theorem ready_wv (r : RWReg) : ready.wv r = true := by
  cases r with
  | key i => revert i; decide
  | _ => decide
theorem ready_written (rs : List RWReg) : ready.allWritten rs := fun r _ => ready_wv r
theorem witness_CinitSeedsTheState :
    ready.status.faulted = false ∧ ready.allWritten cinitList ∧ ready.cfg.pos = .rows :=
  ⟨by decide, ready_written _, by decide⟩
theorem witness_CinitSeedsTheSetAsideLayout :
    let s : State := { ready with cfg := { ready.cfg with pos := .salsaDiagonal } }
    s.status.faulted = false ∧ s.allWritten cinitList ∧ s.cfg.pos = .salsaDiagonal :=
  ⟨by decide, ready_written cinitList, by decide⟩
theorem witness_LengthsAgreeingModulo32BitsSeedAlike :
    ready.status.faulted = false ∧ ready.allWritten cinitList ∧
    ready.regs.len.toNat % 2 ^ 32 = (0x100000041 : Word64).toNat % 2 ^ 32 ∧ ready.regs.len ≠ 0x100000041 :=
  ⟨by decide, ready_written _, by decide, by decide⟩
theorem witness_CinitDependsOnKeyAndLenOnly :
    ready.status.faulted = false ∧ walking.status.faulted = false ∧ ready.allWritten cinitList ∧
    walking.allWritten cinitList ∧ ready.cfg.pos = walking.cfg.pos ∧ ready.regs.key = walking.regs.key ∧
    ready.regs.len = walking.regs.len ∧ exec .cinit ready = .next (afterExec .cinit ready) ∧
    exec .cinit walking = .next (afterExec .cinit walking) :=
  ⟨by decide, by decide, ready_written _, ready_written cinitList, rfl, rfl, rfl, eq_next _ (by decide +kernel),
    eq_next _ (by decide +kernel)⟩
theorem witness_ByteStepUsesTheNextKeystreamByte :
    let c (n : Fin 65) : CipherState := { seeded.cipher with cur := n }
    (c 0).cur.val < 64 ∧ (c 63).cur.val < 64 ∧ (c 64).cur = 64 := by decide
theorem witness_CxorbTransformsDin :
    (ready.status.faulted = false ∧ ready.status.seeded = false) ∧
    (let s := unwritten seeded 0xF7FF;
      s.status.faulted = false ∧ s.status.seeded = true ∧ s.wv .din = false) ∧
    (seeded.status.faulted = false ∧ seeded.status.seeded = true ∧ seeded.wv .din = true) := by decide
theorem witness_CapplyTransformsTheWindow :
    let s : State := { seeded with regs := { seeded.regs with bufBase := 0xFF0, bufCnt := 0x10 } }
    s.status.faulted = false ∧ s.status.seeded = true ∧ s.wv .bufBase = true ∧ s.wv .bufCnt = true ∧
    s.mem.wf s.cfg.memSize = true ∧ s.regs.bufBase.toNat + s.regs.bufCnt.toNat = s.cfg.memSize ∧
    0 < s.regs.bufCnt.toNat := by decide +kernel
theorem witness_CapplyOfNothingChangesNothing :
    let s : State := { seeded with regs := { seeded.regs with bufBase := 0x1000, bufCnt := 0 } }
    s.status.faulted = false ∧ s.status.seeded = true ∧ s.wv .bufBase = true ∧ s.wv .bufCnt = true ∧
    s.regs.bufCnt = 0 ∧ s.regs.bufBase.toNat = s.cfg.memSize := by decide
theorem witness_KeystreamClosedForm : 64 < (List.replicate 65 (0 : Byte)).length := by decide
theorem witness_BlockBoundary :
    ([] : List Byte) = [] ∧ 1 ≤ [(0 : Byte)].length ∧ (List.replicate 64 (0 : Byte)).length = 64 ∧
    (List.replicate 65 (0 : Byte)).length = 65 := by decide
theorem witness_CapplyPiecesEqualOneCapply :
    seeded.status.faulted = false ∧ seeded.status.seeded = true ∧ seeded.wv .bufBase = true ∧
    seeded.wv .bufCnt = true ∧ (65 : Word64).toNat = (([64, 0, 1] : List Word64).map BitVec.toNat).sum ∧
    seeded.regs.bufBase.toNat + (65 : Word64).toNat ≤ seeded.cfg.memSize ∧ seeded.cfg.memSize ≤ 2 ^ 64 := by decide
theorem witness_CxorbBytesEqualOneCapply :
    seeded.status.faulted = false ∧ seeded.status.seeded = true ∧ seeded.wv .din = true ∧ seeded.wv .bufBase = true ∧
    seeded.wv .bufCnt = true ∧ seeded.mem.wf seeded.cfg.memSize = true ∧
    seeded.regs.bufBase.toNat + seeded.regs.bufCnt.toNat ≤ seeded.cfg.memSize ∧ 0 < seeded.regs.bufCnt.toNat := by
  decide +kernel
theorem witness_LanesWithinABlock :
    let c : CipherState := { seeded.cipher with cur := 0 }
    c.cur.val + (List.replicate 64 (1 : Byte)).length ≤ 64 ∧ c.cur.val < 64 := by decide
theorem witness_CipherIsAnInvolution :
    ready.status.faulted = false ∧ ready.allWritten (cinitList ++ [.bufBase, .bufCnt]) ∧
    ready.mem.wf ready.cfg.memSize = true ∧
    ready.regs.bufBase.toNat + ready.regs.bufCnt.toNat ≤ ready.cfg.memSize :=
  ⟨by decide, ready_written _, by decide +kernel, by decide⟩
theorem witness_KeystreamIgnoresTheData :
    let s : State := { seeded with regs := { seeded.regs with bufCnt := 2 } }
    let m : Memory := [(1, 0x55)]
    s.status.faulted = false ∧ s.mem.wf s.cfg.memSize = true ∧ m.wf s.cfg.memSize = true ∧
    exec .capply s = .next (afterExec .capply s) ∧
    exec .capply { s with mem := m } = .next (afterExec .capply { s with mem := m }) :=
  ⟨by decide, by decide +kernel, by decide, eq_next _ (by decide +kernel), eq_next _ (by decide +kernel)⟩

theorem witness_FieldsAreLittleEndian : region.cfg.fieldLE = true := by decide
theorem witness_RdcrhReadsTheHeader :
    region.status.faulted = false ∧ region.wv .payBase = true ∧ region.wv .payLen = true ∧
    region.regs.payBase.toNat + region.regs.payLen.toNat ≤ region.cfg.memSize ∧
    8 + (region.payField 4).toNat = region.regs.payLen.toNat := by decide +kernel
theorem witness_DchkRequiresTheExactSize :
    (region.status.faulted = false ∧ region.status.crhv = false) ∧
    (let s := unwritten regionRead 0x7FFF;
      s.status.faulted = false ∧ s.status.crhv = true ∧ s.wv .retLen = false) ∧
    (let s : State := { regionRead with regs := { regionRead.regs with retLen := 0x10000004D } };
      s.status.faulted = false ∧ s.status.crhv = true ∧ s.wv .retLen = true ∧
      s.regs.retLen.toNat ≠ s.crh.max.toNat) ∧
    (regionRead.status.faulted = false ∧ regionRead.status.crhv = true ∧ regionRead.wv .retLen = true ∧
      regionRead.regs.retLen.toNat = regionRead.crh.max.toNat) := by decide
theorem witness_AhdrReadsTheHeader :
    let s : State := { ready with regs := { ready.regs with payLen := 16 } }
    let u : State := { s with regs := { s.regs with magic := 0x12345679 } }
    (s.status.faulted = false ∧ s.wv .magic = true ∧ s.wv .payBase = true ∧ s.wv .payLen = true ∧
      s.regs.payBase.toNat + s.regs.payLen.toNat ≤ s.cfg.memSize ∧ 16 ≤ s.regs.payLen.toNat ∧
      s.payField 0 = s.regs.magic) ∧
    (u.status.faulted = false ∧ u.wv .magic = true ∧ u.wv .payBase = true ∧ u.wv .payLen = true ∧
      u.regs.payBase.toNat + u.regs.payLen.toNat ≤ u.cfg.memSize ∧ 16 ≤ u.regs.payLen.toNat ∧
      u.payField 0 ≠ u.regs.magic) := by decide +kernel
theorem witness_AnextYieldsTheRecord :
    let s := walkingSecond
    s.status.faulted = false ∧ s.status.arcok = true ∧ s.status.notarc = false ∧ s.ridx ≠ s.ah.count ∧
    s.wv .payBase = true ∧ s.wv .payLen = true ∧ s.regs.payBase.toNat + s.regs.payLen.toNat ≤ s.cfg.memSize ∧
    s.rptr.toNat + 16 + (s.payField (s.rptr.toNat + 4)).toNat ≤ s.regs.payLen.toNat ∧
    s.ah.doff.toNat + (s.payField (s.rptr.toNat + 8)).toNat + (s.payField (s.rptr.toNat + 12)).toNat
      = s.regs.payLen.toNat := by decide +kernel
/-- `ready` after an AHDR that set NOTARC, and `walkingSecond` past its last record. -/
def notArchive : State := { walking with status := { walking.status with arcok := false, notarc := true } }
def walkEnd : State := { walkingSecond with ridx := 2, rptr := 62 }
theorem witness_AnextEndsTheWalk :
    (notArchive.status.faulted = false ∧ (notArchive.status.arcok = true ∨ notArchive.status.notarc = true) ∧
      notArchive.status.notarc = true) ∧
    (walkEnd.status.faulted = false ∧ (walkEnd.status.arcok = true ∨ walkEnd.status.notarc = true) ∧
      walkEnd.ridx = walkEnd.ah.count) := by decide
theorem witness_YieldedSlicesLieInThePayload :
    exec .anext walking = .next (afterExec .anext walking) ∧ (afterExec .anext walking).ridx ≠ walking.ridx :=
  ⟨eq_next _ (by decide +kernel), by decide +kernel⟩
theorem witness_RecordCountLaw :
    (∀ k ∈ [0, 1, 2, 3], walking.status.faulted = false ∧ walking.status.arcok = true ∧
      walking.status.notarc = false ∧ walking.status.ended = false ∧ walking.ridx = 0 ∧
      execAll (List.replicate k .anext) walking = .next (nextOr (execAll (List.replicate k .anext) walking) walking) ∧
      (nextOr (execAll (List.replicate k .anext) walking) walking).status.faulted = false) ∧
    (notArchive.status.faulted = false ∧ notArchive.status.notarc = true ∧ 1 ≤ 1 ∧
      execAll (List.replicate 1 .anext) notArchive =
        .next (nextOr (execAll (List.replicate 1 .anext) notArchive) notArchive)) := by
  have h : ∀ k ∈ [0, 1, 2, 3], isNext (execAll (List.replicate k .anext) walking) = true ∧
      (nextOr (execAll (List.replicate k .anext) walking) walking).status.faulted = false := by decide +kernel
  exact ⟨fun k hk => ⟨by decide, by decide, by decide, by decide, by decide, eq_next _ (h k hk).1, (h k hk).2⟩,
    by decide, by decide, by decide, eq_next _ (by decide +kernel)⟩
theorem witness_NotAnArchiveIsASignal :
    let s : State := { ready with regs := { ready.regs with magic := 0x12345679 } }
    s.status.faulted = false ∧ exec .ahdr s = .next (afterExec .ahdr s) ∧ (afterExec .ahdr s).status.faulted = false ∧
    (afterExec .ahdr s).ah.magic ≠ (afterExec .ahdr s).regs.magic :=
  ⟨by decide, eq_next _ (by decide +kernel), by decide +kernel, by decide +kernel⟩

/-- A command that faults, with a cause that is not `SequenceFault`, in a state where its prerequisite holds. -/
def faultsOtherwise (i : Instr) (s : State) : Bool :=
  isNext (exec i s) && (afterExec i s).status.faulted && decide ((afterExec i s).fcause ≠ 4) && !s.status.faulted
theorem witness_SequenceFaultTable :
    (State.reset.status.faulted = false ∧ State.reset.status.seeded = false ∧ State.reset.status.crhv = false ∧
      State.reset.status.arcok = false ∧ State.reset.status.notarc = false) ∧
    (∀ i ∈ [Instr.cinit, Instr.rdcrh, Instr.ahdr], faultsOtherwise i State.reset = true) ∧
    (let s := unwritten seeded 0;
      s.status.seeded = true ∧ faultsOtherwise .cxorb s = true ∧ faultsOtherwise .capply s = true) ∧
    (let s := unwritten regionRead 0;
      s.status.crhv = true ∧ faultsOtherwise .dchk s = true) ∧
    (let s := unwritten walking 0;
      s.status.arcok = true ∧ faultsOtherwise .anext s = true) := by decide +kernel
theorem witness_UnwrittenRegisterTable :
    (State.reset.status.faulted = false ∧ State.reset.firstUnwritten cinitList = some .len) ∧
    (let s := unwritten ready 0xFEFF;
      s.status.faulted = false ∧ s.firstUnwritten cinitList = some (.key 7)) ∧
    (let s := unwritten seeded 0xF7FF;
      s.status.faulted = false ∧ s.status.seeded = true ∧ s.firstUnwritten [.din] = some .din) ∧
    (let s := unwritten seeded 0xFBFF;
      s.status.faulted = false ∧ s.status.seeded = true ∧ s.firstUnwritten [.bufBase, .bufCnt] = some .bufCnt) ∧
    (let s := unwritten region 0xBFFF;
      s.status.faulted = false ∧ s.firstUnwritten [.payBase, .payLen] = some .payLen) ∧
    (let s := unwritten regionRead 0x7FFF;
      s.status.faulted = false ∧ s.status.crhv = true ∧ s.firstUnwritten [.retLen] = some .retLen) ∧
    (State.reset.firstUnwritten [.magic, .payBase, .payLen] = some .magic) ∧
    (let s := unwritten walking 0xDFFF;
      s.status.faulted = false ∧ s.status.arcok = true ∧ s.status.notarc = false ∧ s.ridx ≠ s.ah.count ∧
      s.firstUnwritten [.payBase, .payLen] = some .payBase) := by decide
/-- The second half of the table: the registers a command reads are written, and it faults with another cause, the other
registers being unwritten. -/
def faultsNotUnwritten (i : Instr) (s : State) : Bool :=
  isNext (exec i s) && (afterExec i s).status.faulted && !s.status.faulted
theorem witness_UnwrittenRegisterTable_only :
    (∀ r ∈ cinitList, (unwritten ready 0x01FF).wv r = true) ∧ (unwritten ready 0x01FF).status.faulted = false ∧
    (let s := unwritten State.reset 0x0800;
      (∀ r ∈ [RWReg.din], s.wv r = true) ∧ faultsNotUnwritten .cxorb s = true) ∧
    (let s := unwritten State.reset 0x0600;
      (∀ r ∈ [RWReg.bufBase, .bufCnt], s.wv r = true) ∧ faultsNotUnwritten .capply s = true) ∧
    (let s := unwritten State.reset 0x6000;
      (∀ r ∈ [RWReg.payBase, .payLen], s.wv r = true) ∧ faultsNotUnwritten .rdcrh s = true ∧
      faultsNotUnwritten .anext s = true) ∧
    (let s := unwritten State.reset 0x8000;
      (∀ r ∈ [RWReg.retLen], s.wv r = true) ∧ faultsNotUnwritten .dchk s = true) ∧
    (let s := unwritten State.reset 0x7000;
      (∀ r ∈ [RWReg.magic, .payBase, .payLen], s.wv r = true) ∧ faultsNotUnwritten .ahdr s = true) := by decide +kernel
theorem witness_AccessFaultTable :
    (let s : State := { seeded with regs := { seeded.regs with bufBase := 0xFF0, bufCnt := 0x11 } };
      s.status.faulted = false ∧ s.regs.bufBase.toNat + s.regs.bufCnt.toNat = s.cfg.memSize + 1 ∧
      s.status.seeded = true ∧ s.wv .bufBase = true ∧ s.wv .bufCnt = true) ∧
    (let s : State := { walking with regs := { walking.regs with payBase := 0xFF0, payLen := 0x11 } };
      s.status.faulted = false ∧ s.regs.payBase.toNat + s.regs.payLen.toNat = s.cfg.memSize + 1 ∧
      s.wv .payBase = true ∧ s.wv .payLen = true ∧ s.wv .magic = true ∧ s.status.arcok = true ∧
      s.status.notarc = false ∧ s.ridx ≠ s.ah.count) := by decide
/-- A state with another payload length. -/
def withPayLen (s : State) (n : Word64) : State := { s with regs := { s.regs with payLen := n } }
/-- The hypotheses that all clauses of the table of bounds faults share. -/
def payloadAdmitted (s : State) : Bool :=
  !s.status.faulted && s.wv .payBase && s.wv .payLen && s.wv .magic &&
    decide (s.regs.payBase.toNat + s.regs.payLen.toNat ≤ s.cfg.memSize)
theorem witness_BoundsFaultTable_headers :
    (payloadAdmitted (withPayLen region 7) = true ∧ (withPayLen region 7).regs.payLen.toNat < 8) ∧
    (let s := withPayLen region 47;
      payloadAdmitted s = true ∧ 8 ≤ s.regs.payLen.toNat ∧ s.regs.payLen.toNat + 1 = 8 + (s.payField 4).toNat) ∧
    (payloadAdmitted (withPayLen ready 15) = true ∧ (withPayLen ready 15).regs.payLen.toNat < 16) := by decide +kernel
theorem witness_BoundsFaultTable_records :
    (walkingSecond.status.arcok = true ∧ walkingSecond.status.notarc = false ∧
      walkingSecond.ridx ≠ walkingSecond.ah.count) ∧
    (let s := withPayLen walkingSecond 52;
      payloadAdmitted s = true ∧ s.regs.payLen.toNat + 1 = s.rptr.toNat + 16) ∧
    (let s := withPayLen walkingSecond 61;
      payloadAdmitted s = true ∧ s.rptr.toNat + 16 ≤ s.regs.payLen.toNat ∧
      s.regs.payLen.toNat + 1 = s.rptr.toNat + 16 + (s.payField (s.rptr.toNat + 4)).toNat) ∧
    (let s := withPayLen walkingSecond 76;
      payloadAdmitted s = true ∧
      s.rptr.toNat + 16 + (s.payField (s.rptr.toNat + 4)).toNat ≤ s.regs.payLen.toNat ∧
      s.regs.payLen.toNat + 1 =
        s.ah.doff.toNat + (s.payField (s.rptr.toNat + 8)).toNat + (s.payField (s.rptr.toNat + 12)).toNat) := by
  decide +kernel
theorem witness_FaultsArePrecise :
    State.reset.status.faulted = false ∧ exec .cinit State.reset = .next (afterExec .cinit State.reset) ∧
    (afterExec .cinit State.reset).status.faulted = true :=
  ⟨by decide, eq_next _ (by decide +kernel), by decide +kernel⟩
/-- The state after one step of a state. -/
def afterStep (s : State) : State := nextOr (step s) s
theorem witness_FirstFaultIsKept :
    faulted.status.faulted = true ∧
    step (waiting faulted (.wr 0x00 0x04)) = .next (afterStep (waiting faulted (.wr 0x00 0x04))) :=
  ⟨by decide, eq_next _ (by decide +kernel)⟩

/-- The invariant holds of the walk of V12, with a CMD write of ANEXT waiting. -/
theorem walking_inv : (waiting walking (.wr 0x00 0x21)).Inv where
  cfg_wf := by decide
  mem_wf := by decide +kernel
  faultLatch := by unfold State.FaultLatchConsistent; decide
  unwritten := by
    intro r h
    exact absurd ((ready_wv r).symm.trans h) (by decide)
  cipher := by
    refine ⟨fun _ => by decide, fun h => absurd h (by decide)⟩
  region := by unfold State.RegionConsistent; decide
  walk := by unfold State.WalkConsistent; decide
theorem witness_AnextNeverRaisesUnwritten :
    (waiting walking (.wr 0x00 0x21)).Inv ∧ (waiting walking (.wr 0x00 0x21)).status.faulted = false ∧
    exec .anext (waiting walking (.wr 0x00 0x21)) = .next (afterExec .anext (waiting walking (.wr 0x00 0x21))) :=
  ⟨walking_inv, by decide, eq_next _ (by decide +kernel)⟩
theorem witness_OnlyCinitAndKsgenWriteX :
    (waiting seeded (.wr 0x00 0x02)).cfg.pos = .rows ∧
    step (waiting seeded (.wr 0x00 0x02)) = .next (afterStep (waiting seeded (.wr 0x00 0x02))) ∧
    (afterStep (waiting seeded (.wr 0x00 0x02))).cipher.x ≠ seeded.cipher.x :=
  ⟨by decide, eq_next _ (by decide +kernel), by decide +kernel⟩
theorem witness_OnlyCapplyAndTheHostWriteMem :
    (Instr.cxorb ≠ .capply ∧ exec .cxorb seeded = .next (afterExec .cxorb seeded)) ∧
    step (waiting ready (.memStore 0xFFF [1])) = .next (afterStep (waiting ready (.memStore 0xFFF [1]))) :=
  ⟨⟨by decide, eq_next _ (by decide +kernel)⟩, eq_next _ (by decide +kernel)⟩
theorem witness_OnlyTheHostWritesRwRegisters :
    (Instr.ahdr ≠ .srst ∧ exec .ahdr ready = .next (afterExec .ahdr ready)) ∧
    (step (waiting ready (.wr 0x00 0x20)) = .next (afterStep (waiting ready (.wr 0x00 0x20))) ∧
      (waiting ready (.wr 0x00 0x20)).wv .retLen = true) :=
  ⟨⟨by decide, eq_next _ (by decide +kernel)⟩, eq_next _ (by decide +kernel), by decide⟩
theorem witness_ConfigurationIsFixed :
    step (waiting faulted (.wr 0x00 0xFF)) = .next (afterStep (waiting faulted (.wr 0x00 0xFF))) :=
  eq_next _ (by decide +kernel)
theorem witness_StepKeepsTheInvariant :
    (waiting walking (.wr 0x00 0x21)).Inv ∧
    step (waiting walking (.wr 0x00 0x21)) = .next (afterStep (waiting walking (.wr 0x00 0x21))) :=
  ⟨walking_inv, eq_next _ (by decide +kernel)⟩
theorem witness_ResetHasTheInvariant : ({ memSize := 2 ^ 64, pos := .rows, fieldLE := true } : Config).memSize ≤ 2 ^ 64 := by
  decide

end Sys2Proof.Tests
end

section
/-! The byte order of the container fields (20_memory.md). -/

namespace Sys2Proof.Proofs.ContainerFields

open Sys2Proof Sys2Proof.Machine

/-- A field of `MEM` as a number, with `FIELD_LE` at the spec's value (R56): no premise on the address, so no alignment
and no bound. -/
theorem toNat_readField_littleEndian (m : Memory) (addr : Nat) :
    (m.readField true addr).toNat =
      (m.readByte addr).toNat + 2 ^ 8 * (m.readByte (addr + 1)).toNat + 2 ^ 16 * (m.readByte (addr + 2)).toNat
        + 2 ^ 24 * (m.readByte (addr + 3)).toNat := by
  rw [Memory.readField, if_pos rfl, toNat_le32]

/-- Settles O38: a payload field is the field of `MEM` at `PAY_BASE + o`, read in the byte order of the switch. -/
theorem fieldsAreLittleEndian : Obligations.FieldsAreLittleEndian := by
  intro s o hle
  rw [State.payField, hle, toNat_readField_littleEndian]

end Sys2Proof.Proofs.ContainerFields
end

section
/-! Decoding a command word (30_encoding.md). -/

namespace Sys2Proof.Proofs.Encoding

/-- The opcode map and the opcode of a command, which the model writes apart, agree (R71): each branch of the map
answers the command whose opcode it has just compared with. -/
theorem opcodeCommand_eq_some_iff {op : BitVec 8} {i : Instr} : opcodeCommand op = some i ↔ op = commandOpcode i := by
  constructor
  · intro h
    unfold opcodeCommand at h
    split_ifs at h <;> cases h <;> assumption
  · rintro rfl
    cases i <;> decide

@[simp] theorem ofWord_toWord (c : CommandWord) : CommandWord.ofWord c.toWord = c := by
  simp only [CommandWord.ofWord, CommandWord.toWord, BitVec.extractLsb'_append_eq_left,
    BitVec.extractLsb'_append_eq_right]

@[simp] theorem toWord_ofWord (w : Word64) : (CommandWord.ofWord w).toWord = w :=
  BitVec.extractLsb'_append_extractLsb' (w := 56) (len := 8)

/-- The two fields hold all 64 bits of a command word (R70). -/
theorem ofWord_eq_iff {w : Word64} {c : CommandWord} : CommandWord.ofWord w = c ↔ w = c.toWord := by
  constructor
  · rintro rfl
    exact (toWord_ofWord w).symm
  · rintro rfl
    exact ofWord_toWord c

/-- What the decoder looks at: the upper field is 0 and the opcode map assigns the opcode (R70, R73). -/
theorem decode_eq_ok_iff_fields {w : Word64} {i : Instr} :
    decode w = .ok i ↔ (CommandWord.ofWord w).zero = 0 ∧ opcodeCommand (CommandWord.ofWord w).op = some i := by
  by_cases hzero : (CommandWord.ofWord w).zero = 0
  · rw [decode, if_pos hzero]
    cases opcodeCommand (CommandWord.ofWord w).op <;> simp [hzero]
  · rw [decode, if_neg hzero]
    simp only [hzero, false_and, reduceCtorEq]

/-- A word decodes to a command exactly when it is, on all 64 bits, that command's word (R72). -/
theorem decode_eq_ok_iff {w : Word64} {i : Instr} : decode w = .ok i ↔ w = encode i :=
  calc decode w = .ok i
    _ ↔ (CommandWord.ofWord w).zero = 0 ∧ (CommandWord.ofWord w).op = commandOpcode i := by
      rw [decode_eq_ok_iff_fields, opcodeCommand_eq_some_iff]
    _ ↔ CommandWord.ofWord w = { op := commandOpcode i, zero := 0 } := by
      rw [and_comm, ← CommandWord.mk.injEq]
    _ ↔ w = encode i := ofWord_eq_iff

/-- R72's list of match words leaves no command out. -/
theorem encode_mem_matchWords (i : Instr) :
    encode i ∈ ([0x01, 0x02, 0x03, 0x10, 0x11, 0x20, 0x21, 0xFF] : List Word64) := by
  cases i <;> decide

/-- Settles O1: a word decodes to a command exactly when it is that command's word, so a word that is none of the eight
decodes to no command. -/
theorem decodeSelectsExactlyTheMatchWord : Obligations.DecodeSelectsExactlyTheMatchWord := by
  intro w
  refine ⟨decode_eq_ok_iff, decode_eq_ok_iff, decode_eq_ok_iff, decode_eq_ok_iff, decode_eq_ok_iff, decode_eq_ok_iff,
    decode_eq_ok_iff, decode_eq_ok_iff, fun hw => ?_⟩
  cases hd : decode w with
  | error why => exact ⟨why, rfl⟩
  | ok i =>
    obtain rfl := decode_eq_ok_iff.1 hd
    exact absurd (encode_mem_matchWords i) hw

end Sys2Proof.Proofs.Encoding
end

section
/-! Seeding the cipher (40_cipher_init.md). -/

namespace Sys2Proof.Proofs.CipherInit

open Sys2Proof Sys2Proof.Machine

/-! CINIT past its tests. -/

/-- The state CINIT leaves where none of its tests fails (R90). -/
def cinitState (s : State) : State :=
  { s with
    cipher := s.cipher.seed s.cfg.pos s.regs.key s.regs.len
    status := s.status.afterCinit }

/-- With FAULTED 0 and LEN and KEY written, CINIT raises nothing and seeds (R90, R166, R167). -/
theorem exec_cinit_of_written {s : State} (hf : s.status.faulted = false) (hw : s.allWritten cinitRegs) :
    exec .cinit s = .next (cinitState s) := by
  have hbody : commandBody .cinit s = .ok (cinitState s) := cinitBody_eq_ok.2 ⟨hw, rfl⟩
  rw [exec_eq_runCommand (by decide)]
  exact runCommand_of_ok hf hbody

/-! The seed words. -/

/-- The constant string read as four little-endian words (R92). -/
theorem constantWords_eq : constantWords = #v[0x61707865, 0x3320646E, 0x79622D32, 0x6B206574] := by decide

/-- The control words are functions of the low 32 bits of the length: in `T2` the carry out of bit 31 is lost, and `T3` is
the complement (R91). -/
theorem controlWords_eq_lowWord (len : Word64) :
    controlWords len = #v[0, len.setWidth 32, len.setWidth 32 + 1#32, ~~~(len.setWidth 32)] := by
  have hcarry : (len + 1).setWidth 32 = len.setWidth 32 + 1#32 := BitVec.setWidth_add len 1 (by decide)
  have hflip : len.setWidth 32 ^^^ 0xFFFFFFFF = ~~~(len.setWidth 32) := BitVec.xor_allOnes
  rw [controlWords, hcarry, hflip]

/-- The complement of a word is its distance from the largest word. -/
theorem not_lowWord_eq_ofNat (len : Word64) :
    ~~~(len.setWidth 32) = BitVec.ofNat 32 (0xFFFFFFFF - len.toNat % 2 ^ 32) := by
  apply BitVec.eq_of_toNat_eq
  rw [BitVec.toNat_not, BitVec.toNat_setWidth, BitVec.toNat_ofNat]
  omega

/-- The control words in the natural-number form of R91. -/
theorem controlWords_eq_ofNat (len : Word64) :
    controlWords len =
      #v[0, BitVec.ofNat 32 len.toNat, BitVec.ofNat 32 (len.toNat + 1),
        BitVec.ofNat 32 (0xFFFFFFFF - len.toNat % 2 ^ 32)] := by
  rw [controlWords_eq_lowWord, not_lowWord_eq_ofNat, BitVec.ofNat_add, BitVec.ofNat_toNat]

/-- R93's placement by rows. -/
theorem seedWords_rows (key : KeyWords) (len : Word64) :
    seedWords .rows key len =
      (#v[0x61707865, 0x3320646E, 0x79622D32, 0x6B206574,
        key[0], key[1], key[2], key[3], key[4], key[5], key[6], key[7],
        0, BitVec.ofNat 32 len.toNat, BitVec.ofNat 32 (len.toNat + 1),
        BitVec.ofNat 32 (0xFFFFFFFF - len.toNat % 2 ^ 32)] : Words) := by
  unfold seedWords
  rw [constantWords_eq, controlWords_eq_ofNat]
  rfl

/-- The length reaches the seed through its low 32 bits only, under either layout (R95). -/
theorem seedWords_congr_len {len len' : Word64} (h : len.toNat % 2 ^ 32 = len'.toNat % 2 ^ 32) (pos : SeedLayout)
    (key : KeyWords) : seedWords pos key len = seedWords pos key len' := by
  have hlow : len.setWidth 32 = len'.setWidth 32 := by
    apply BitVec.eq_of_toNat_eq
    rw [BitVec.toNat_setWidth, BitVec.toNat_setWidth, h]
  have hcontrol : controlWords len = controlWords len' := by
    rw [controlWords_eq_lowWord, controlWords_eq_lowWord, hlow]
  unfold seedWords
  rw [hcontrol]

/-- Two lengths that agree modulo 2^32 leave the same cipher state after CINIT (R95). -/
theorem cinitState_cipher_congr_len {s : State} {len' : Word64}
    (h : s.regs.len.toNat % 2 ^ 32 = len'.toNat % 2 ^ 32) :
    (cinitState s).cipher = (cinitState { s with regs := { s.regs with len := len' } }).cipher := by
  rw [cinitState, cinitState, CipherState.seed, CipherState.seed, seedWords_congr_len h]

/-! The obligations. -/

/-- Settles O19: CINIT seeds, and under the spec's layout the seed is the placement by rows. -/
theorem cinitSeedsTheState : Obligations.CinitSeedsTheState := by
  intro s hf hw hpos
  rw [exec_cinit_of_written hf hw, cinitState, CipherState.seed, hpos, seedWords_rows]
  rfl

/-- Settles O21: both runs of CINIT seed, the two seeds are equal, and XSTEP starts from equal cipher states under one
layout. -/
theorem lengthsAgreeingModulo32BitsSeedAlike : Obligations.LengthsAgreeingModulo32BitsSeedAlike := by
  intro s len' hf hw hlen
  have hcipher := cinitState_cipher_congr_len hlen
  refine ⟨_, _, exec_cinit_of_written hf hw,
    exec_cinit_of_written (s := { s with regs := { s.regs with len := len' } }) hf hw, hcipher, fun bs => ?_⟩
  rw [hcipher]
  rfl

end Sys2Proof.Proofs.CipherInit
end

section
/-! Keystream block generation (41_keystream_block.md). -/

namespace Sys2Proof.Proofs.KeystreamBlock

open Sys2Proof Sys2Proof.Machine

/-! The rounds. -/

/-- Words `j`, `4+j`, `8+j`, `12+j` form column `j` (R102). -/
theorem columnRound_column (w : Words) (j : Fin 4) :
    ((columnRound w)[j.val], (columnRound w)[4 + j.val], (columnRound w)[8 + j.val], (columnRound w)[12 + j.val])
      = quarterRound w[j.val] w[4 + j.val] w[8 + j.val] w[12 + j.val] := by
  match j with
  | 0 => rfl
  | 1 => rfl
  | 2 => rfl
  | 3 => rfl

/-- The diagonal that starts in column `j` moves one column to the right in each row, around the end (R103). -/
theorem diagonalRound_diagonal (w : Words) (j : Fin 4) :
    ((diagonalRound w)[j.val], (diagonalRound w)[4 + (j.val + 1) % 4], (diagonalRound w)[8 + (j.val + 2) % 4],
        (diagonalRound w)[12 + (j.val + 3) % 4])
      = quarterRound w[j.val] w[4 + (j.val + 1) % 4] w[8 + (j.val + 2) % 4] w[12 + (j.val + 3) % 4] := by
  match j with
  | 0 => rfl
  | 1 => rfl
  | 2 => rfl
  | 3 => rfl

theorem doubleRounds_eq_iterate (n : Nat) (w : Words) :
    doubleRounds n w = (fun v => diagonalRound (columnRound v))^[n] w := by
  induction n generalizing w with
  | zero => rfl
  | succ n ih => rw [doubleRounds, ih, Function.iterate_succ_apply]

/-! The bytes of a block. -/

theorem toNat_byteOf (j : Nat) (w : Word) : (byteOf j w).toNat = w.toNat / 2 ^ (8 * j) % 256 := by
  rw [byteOf, BitVec.extractLsb'_toNat, Nat.shiftRight_eq_div_pow]

/-- The feed-forward adds the words from before the rounds (R104, R105). -/
theorem getElem_blockWords (x : Words) (i : Fin 16) :
    (blockWords x)[i.val] = ((fun v => diagonalRound (columnRound v))^[10] x)[i.val] + x[i.val] := by
  rw [← doubleRounds_eq_iterate, blockWords, Vector.getElem_ofFn]
  rfl

/-- Byte `4i+j` of the serialisation is byte `j` of word `i` (R107). -/
theorem getElem_serialise (out : Words) (i : Fin 16) (j : Fin 4) :
    (serialise out)[4 * i.val + j.val] = byteOf j.val out[i.val] := by
  have hbyte : (4 * i.val + j.val) % 4 = j.val := by omega
  have hword : (4 * i.val + j.val) / 4 = i.val := by omega
  simp only [serialise, Vector.getElem_ofFn, hbyte, hword]

/-! The counter step. -/

/-- The two counter words after KSGEN, under either layout: the 64-bit counter is one more modulo 2^64 (R108). -/
theorem toNat_ksgen_counter (pos : SeedLayout) (c : CipherState) :
    (c.ksgen pos).x[counterHigh pos].toNat * 2 ^ 32 + (c.ksgen pos).x[counterLow pos].toNat =
      (c.x[counterHigh pos].toNat * 2 ^ 32 + c.x[counterLow pos].toNat + 1) % 2 ^ 64 := by
  have hstep : blockCounter pos (c.ksgen pos).x = blockCounter pos c.x + 1 := by
    rw [CipherState.ksgen_x, blockCounter_withCounter]
  rw [← toNat_append_words, ← toNat_append_words]
  calc (blockCounter pos (c.ksgen pos).x).toNat
      = (blockCounter pos c.x + 1).toNat := by rw [hstep]
    _ = ((blockCounter pos c.x).toNat + 1) % 2 ^ 64 := BitVec.toNat_add _ _

/-- KSGEN changes no word of `X` but the two counter words. -/
theorem getElem_ksgen_x_of_ne (pos : SeedLayout) (c : CipherState) (i : Fin 16) (hl : i ≠ counterLow pos)
    (hh : i ≠ counterHigh pos) : (c.ksgen pos).x[i] = c.x[i] := by
  rw [CipherState.ksgen_x]
  exact getElem_withCounter_of_ne pos c.x _ i hl hh

/-! The obligations. -/

/-- Settles O25: the block's bytes word by word, the counter step and the words it leaves alone under the layout by
rows, and the cursor. -/
theorem ksgenGeneratesOneBlock : Obligations.KsgenGeneratesOneBlock := by
  intro c
  refine ⟨fun i j => ?_, toNat_ksgen_counter .rows c, getElem_ksgen_x_of_ne .rows c, CipherState.ksgen_cur .rows c⟩
  simp only [CipherState.ksgen_ks, blockBytes, getElem_serialise, toNat_byteOf, getElem_blockWords]

/-- Settles O24: column by column and diagonal by diagonal. -/
theorem roundsApplyQuarterRounds : Obligations.RoundsApplyQuarterRounds :=
  fun w j => ⟨columnRound_column w j, diagonalRound_diagonal w j⟩

end Sys2Proof.Proofs.KeystreamBlock
end

section
/-! The byte step and CXORB (42_xor_engine.md). -/

namespace Sys2Proof.Proofs.XorEngine

open Sys2Proof Sys2Proof.Machine

/-! The byte step, in the two cases of the cursor on entry. -/

/-- Below cursor 64 the byte step consumes the next byte of the block at hand, and only the cursor moves (R115). -/
theorem xstep_of_lt {pos : SeedLayout} {b : Byte} {c : CipherState} (h : c.cur.val < 64) :
    c.xstep pos b = (b ^^^ c.ks[c.cur.val], { c with cur := c.cur + 1 }) := by
  rw [CipherState.xstep, refill_of_lt h, keystreamByte_of_lt h]

/-- At cursor 64 the byte step is the byte step on a block generated first (R115). -/
theorem xstep_of_eq {pos : SeedLayout} {b : Byte} {c : CipherState} (h : c.cur = 64) :
    c.xstep pos b = (c.ksgen pos).xstep pos b := by
  have hcur : (c.ksgen pos).cur.val < 64 := by rw [CipherState.ksgen_cur]; decide
  rw [CipherState.xstep, CipherState.xstep, refill_of_eq h, refill_of_lt hcur]

/-- A generated block is consumed from its byte 0, and the cursor is 1 after (R109, R115). -/
theorem xstep_ksgen (pos : SeedLayout) (b : Byte) (c : CipherState) :
    (c.ksgen pos).xstep pos b = (b ^^^ (c.ksgen pos).ks[0], { c.ksgen pos with cur := 1 }) :=
  xstep_of_lt (by rw [CipherState.ksgen_cur]; decide)

/-! A command's fate from its body's. -/

/-- Fault entry as the statements write it: the code of the cause, and FINFO. -/
theorem raise_eq_latched (s : State) (f : Raised) : s.raise f = s.latched (causeCode f.cause) f.info := rfl

/-- With FAULTED 0, a command whose body raises latches that fault and does nothing else (R170). -/
theorem exec_of_body_error {i : Instr} {s : State} {f : Raised} (hi : i ≠ .srst) (hf : s.status.faulted = false)
    (hb : commandBody i s = .error f) : exec i s = .next (s.latched (causeCode f.cause) f.info) := by
  rw [exec_eq_runCommand hi, runCommand_of_error hf hb, raise_eq_latched]

/-- With FAULTED 0, a command whose body answers a state goes to that state. -/
theorem exec_of_body_ok {i : Instr} {s t : State} (hi : i ≠ .srst) (hf : s.status.faulted = false)
    (hb : commandBody i s = .ok t) : exec i s = .next t := by
  rw [exec_eq_runCommand hi, runCommand_of_ok hf hb]

/-! The two faults of CXORB. -/

/-- The first check of CXORB, whatever DIN's written-valid bit is (R116, R166). -/
theorem cxorbBody_of_not_seeded {s : State} (h : s.status.seeded = false) :
    cxorbBody s = .error { cause := .sequenceFault, info := 0x02 } := by
  rw [cxorbBody, requireSequence_bind, h]
  rfl

/-- The second check of CXORB: DIN is register 0x1A (R116, R167). -/
theorem cxorbBody_of_din_unwritten {s : State} (h : s.status.seeded = true) (hdin : s.wv .din = false) :
    cxorbBody s = .error { cause := .unwrittenRegister, info := 0x1A } := by
  have hfind : [RWReg.din].find? (fun r => !s.wv r) = some .din := List.find?_cons_of_pos (by rw [hdin]; rfl)
  rw [cxorbBody, requireSequence_bind, if_pos h, requireWritten_of_find hfind]
  rfl

/-! The obligations. -/

/-- Settles O27: the two cases of the cursor on entry; in both the byte step increments the cursor last, so it is not 0
on exit. -/
theorem byteStepUsesTheNextKeystreamByte : Obligations.ByteStepUsesTheNextKeystreamByte := by
  intro pos b c
  refine ⟨fun hlt => ?_, fun heq => ?_, ?_⟩
  · rw [xstep_of_lt hlt]
    exact ⟨rfl, rfl, rfl, val_cur_add_one hlt⟩
  · rw [xstep_of_eq heq, xstep_ksgen]
    exact ⟨rfl, rfl, rfl, rfl⟩
  · rw [xstep_cur_val]
    exact Nat.le_add_left 1 _

/-- Settles O28: the two checks of CXORB in their order, and its effect where both pass. -/
theorem cxorbTransformsDin : Obligations.CxorbTransformsDin := by
  intro s hf
  refine ⟨fun hseeded => ?_, fun hseeded hdin => ?_, fun hseeded hdin => ?_⟩
  · exact exec_of_body_error (i := .cxorb) (by decide) hf (cxorbBody_of_not_seeded hseeded)
  · exact exec_of_body_error (i := .cxorb) (by decide) hf (cxorbBody_of_din_unwritten hseeded hdin)
  · exact exec_of_body_ok (i := .cxorb) (by decide) hf (cxorbBody_eq_ok.2 ⟨hseeded, hdin, rfl⟩)

end Sys2Proof.Proofs.XorEngine
end

section
/-! The size check of the compressed-region header (43_region_header.md). -/

namespace Sys2Proof.Proofs.RegionHeader

open Sys2Proof Sys2Proof.Machine
open Sys2Proof.Proofs.XorEngine (exec_of_body_error exec_of_body_ok)

/-- A command that reads one register raises on that register where it was not written since reset (R167). -/
theorem requireWritten_singleton_of_unwritten {s : State} {r : RWReg} (h : s.wv r = false) :
    requireWritten s [r] = .error { cause := .unwrittenRegister, info := BitVec.ofNat 64 (rwNumber r) } :=
  requireWritten_of_find (List.find?_cons_of_pos (by rw [h]; rfl))

/-- The comparison of DCHK cuts off no bit of the register: it is equality of numbers, so a register of 2^32 or
more matches no field (R128). -/
theorem eq_setWidth_iff_toNat_eq {v : Word64} {m : Word} : v = m.setWidth 64 ↔ v.toNat = m.toNat := by
  rw [BitVec.toNat_eq, BitVec.toNat_setWidth_of_le (by decide)]

/-! The three faults of DCHK; `dchkBody_eq_ok` says where there is none. -/

/-- The first check of DCHK, whatever RETLEN is (R128, R166). -/
theorem dchkBody_of_no_header {s : State} (h : s.status.crhv = false) :
    dchkBody s = .error { cause := .sequenceFault, info := 0x11 } := by
  rw [dchkBody, requireSequence_bind, h]
  rfl

/-- The second check of DCHK: RETLEN is register 0x43 (R128, R167). -/
theorem dchkBody_of_retLen_unwritten {s : State} (h : s.status.crhv = true) (hret : s.wv .retLen = false) :
    dchkBody s = .error { cause := .unwrittenRegister, info := 0x43 } := by
  rw [dchkBody, requireSequence_bind, if_pos h, requireWritten_singleton_of_unwritten hret]
  rfl

/-- The third check of DCHK: FINFO is the length that does not match (R128). -/
theorem dchkBody_of_size_ne {s : State} (h : s.status.crhv = true) (hret : s.wv .retLen = true)
    (hne : s.regs.retLen ≠ s.crh.max.setWidth 64) :
    dchkBody s = .error { cause := .decompressionSizeMismatch, info := s.regs.retLen } := by
  have hwritten : requireWritten s [.retLen] = .ok () := requireWritten_of_all (List.forall_mem_singleton.2 hret)
  rw [dchkBody, requireSequence_bind, if_pos h, hwritten, except_ok_bind, require_bind,
    if_neg (mt eq_of_beq hne)]

/-! The obligation. -/

/-- Settles O40: the three checks of DCHK in their order, and its effect where all three pass. -/
theorem dchkRequiresTheExactSize : Obligations.DchkRequiresTheExactSize := by
  intro s hf
  refine ⟨fun hcrhv => ?_, fun hcrhv hret => ?_, fun hcrhv hret hne => ?_, fun hcrhv hret heq => ?_⟩
  · exact exec_of_body_error (i := .dchk) (by decide) hf (dchkBody_of_no_header hcrhv)
  · exact exec_of_body_error (i := .dchk) (by decide) hf (dchkBody_of_retLen_unwritten hcrhv hret)
  · exact exec_of_body_error (i := .dchk) (by decide) hf
      (dchkBody_of_size_ne hcrhv hret (mt eq_setWidth_iff_toNat_eq.1 hne))
  · exact exec_of_body_ok (i := .dchk) (by decide) hf
      (dchkBody_eq_ok.2 ⟨hcrhv, hret, eq_setWidth_iff_toNat_eq.2 heq, rfl⟩)

end Sys2Proof.Proofs.RegionHeader
end

section
/-! Faults: what each command raises, and that it does nothing else (60_exceptions.md). -/

namespace Sys2Proof.Proofs.Exceptions

open Sys2Proof Sys2Proof.Machine
open Sys2Proof.Proofs.CipherInit (cinitState exec_cinit_of_written)
open Sys2Proof.Proofs.XorEngine (exec_of_body_error raise_eq_latched)

/-! What a check of a prologue raises: its own fault, or what comes after it does. The counterparts of the
`_bind_eq_ok` laws. -/

section Checks

variable {s : State} {f : Raised} {k : Unit → Except Raised State}

/-- The fault of a register that was not written since reset (R167). -/
def unwrittenFault (r : RWReg) : Raised := { cause := .unwrittenRegister, info := BitVec.ofNat 64 (rwNumber r) }

@[simp] theorem unwrittenFault_cause (r : RWReg) : (unwrittenFault r).cause = .unwrittenRegister := rfl

theorem firstUnwritten_eq_find (s : State) (rs : List RWReg) :
    s.firstUnwritten rs = rs.find? (fun r => !s.wv r) := by
  simp only [State.firstUnwritten, beq_false]

theorem firstUnwritten_of_allWritten {rs : List RWReg} (h : s.allWritten rs) : s.firstUnwritten rs = none := by
  rw [firstUnwritten_eq_find, List.find?_eq_none]
  intro r hr
  simp [h r hr]

theorem requireWritten_bind_eq_error {rs : List RWReg} : (requireWritten s rs >>= k) = .error f ↔
    (∃ r, s.firstUnwritten rs = some r ∧ f = unwrittenFault r) ∨ (s.allWritten rs ∧ k () = .error f) := by
  rcases requireWritten_cases s rs with ⟨hall, he⟩ | ⟨r, hfind, he⟩
  · rw [he, except_ok_bind, firstUnwritten_of_allWritten hall]
    simp [show s.allWritten rs from hall]
  · have hfirst : s.firstUnwritten rs = some r := by rw [firstUnwritten_eq_find, hfind]
    have hnot : ¬s.allWritten rs := fun hall => by simp [firstUnwritten_of_allWritten hall] at hfirst
    rw [he, except_error_bind, hfirst]
    simp [hnot, unwrittenFault, eq_comm]

theorem require_bind_eq_error {ok : Bool} {c : FaultCause} {i : Word64} : (require ok c i >>= k) = .error f ↔
    (ok = false ∧ f = { cause := c, info := i }) ∨ (ok = true ∧ k () = .error f) := by
  rw [require_bind]
  cases ok <;> simp [eq_comm]

theorem requireSequence_bind_eq_error {ok : Bool} {i : Word64} : (requireSequence ok i >>= k) = .error f ↔
    (ok = false ∧ f = { cause := .sequenceFault, info := i }) ∨ (ok = true ∧ k () = .error f) :=
  require_bind_eq_error

theorem requireWindow_bind_eq_error {b l : Word64} : (requireWindow s b l >>= k) = .error f ↔
    (s.cfg.memSize < b.toNat + l.toNat ∧ f = { cause := .accessFault, info := b }) ∨
      (b.toNat + l.toNat ≤ s.cfg.memSize ∧ k () = .error f) := by
  rw [requireWindow, require_bind_eq_error, decide_eq_true_eq, decide_eq_false_iff_not, Nat.not_le]

theorem requireBounds_bind_eq_error {n : Nat} {o : Word64} : (requireBounds s n o >>= k) = .error f ↔
    (s.regs.payLen.toNat < n ∧ f = { cause := .boundsFault, info := o }) ∨
      (n ≤ s.regs.payLen.toNat ∧ k () = .error f) := by
  rw [requireBounds, require_bind_eq_error, decide_eq_true_eq, decide_eq_false_iff_not, Nat.not_le]

theorem pure_eq_error : (pure s : Except Raised State) = .error f ↔ False := ⟨nofun, False.elim⟩

end Checks

/-! What each command raises, in the order of its checks: a later fault only where the earlier checks pass. -/

section Commands

variable {s : State} {f : Raised}

theorem cinitBody_eq_error : cinitBody s = .error f ↔
    ∃ r, s.firstUnwritten cinitRegs = some r ∧ f = unwrittenFault r := by
  rw [cinitBody, requireWritten_bind_eq_error, pure_eq_error, and_false, or_false]

theorem cxorbBody_eq_error : cxorbBody s = .error f ↔
    (s.status.seeded = false ∧ f = { cause := .sequenceFault, info := 0x02 }) ∨
      (s.status.seeded = true ∧ ∃ r, s.firstUnwritten [.din] = some r ∧ f = unwrittenFault r) := by
  rw [cxorbBody, requireSequence_bind_eq_error, requireWritten_bind_eq_error, pure_eq_error, and_false, or_false]

theorem capplyBody_eq_error : capplyBody s = .error f ↔
    (s.status.seeded = false ∧ f = { cause := .sequenceFault, info := 0x03 }) ∨
      (s.status.seeded = true ∧
        ((∃ r, s.firstUnwritten [.bufBase, .bufCnt] = some r ∧ f = unwrittenFault r) ∨
          (s.allWritten [.bufBase, .bufCnt] ∧ s.cfg.memSize < s.regs.bufBase.toNat + s.regs.bufCnt.toNat ∧
            f = { cause := .accessFault, info := s.regs.bufBase }))) := by
  rw [capplyBody, requireSequence_bind_eq_error, requireWritten_bind_eq_error, requireWindow_bind_eq_error,
    pure_eq_error, and_false, or_false]

theorem rdcrhBody_eq_error : rdcrhBody s = .error f ↔
    (∃ r, s.firstUnwritten [.payBase, .payLen] = some r ∧ f = unwrittenFault r) ∨
      (s.allWritten [.payBase, .payLen] ∧
        ((s.cfg.memSize < s.regs.payBase.toNat + s.regs.payLen.toNat ∧
            f = { cause := .accessFault, info := s.regs.payBase }) ∨
          (s.regs.payBase.toNat + s.regs.payLen.toNat ≤ s.cfg.memSize ∧
            ((s.regs.payLen.toNat < 8 ∧ f = { cause := .boundsFault, info := 0 }) ∨
              (8 ≤ s.regs.payLen.toNat ∧ s.regs.payLen.toNat < 8 + (s.payField 4).toNat ∧
                f = { cause := .boundsFault, info := 4 }))))) := by
  rw [rdcrhBody, requireWritten_bind_eq_error, requireWindow_bind_eq_error, requireBounds_bind_eq_error,
    requireBounds_bind_eq_error, pure_eq_error, and_false, or_false]

theorem dchkBody_eq_error : dchkBody s = .error f ↔
    (s.status.crhv = false ∧ f = { cause := .sequenceFault, info := 0x11 }) ∨
      (s.status.crhv = true ∧
        ((∃ r, s.firstUnwritten [.retLen] = some r ∧ f = unwrittenFault r) ∨
          (s.allWritten [.retLen] ∧ s.regs.retLen ≠ s.crh.max.setWidth 64 ∧
            f = { cause := .decompressionSizeMismatch, info := s.regs.retLen }))) := by
  rw [dchkBody, requireSequence_bind_eq_error, requireWritten_bind_eq_error, require_bind_eq_error, pure_eq_error,
    and_false, or_false, beq_eq_false_iff_ne]

theorem ahdrBody_eq_error : ahdrBody s = .error f ↔
    (∃ r, s.firstUnwritten [.magic, .payBase, .payLen] = some r ∧ f = unwrittenFault r) ∨
      (s.allWritten [.magic, .payBase, .payLen] ∧
        ((s.cfg.memSize < s.regs.payBase.toNat + s.regs.payLen.toNat ∧
            f = { cause := .accessFault, info := s.regs.payBase }) ∨
          (s.regs.payBase.toNat + s.regs.payLen.toNat ≤ s.cfg.memSize ∧ s.regs.payLen.toNat < 16 ∧
            f = { cause := .boundsFault, info := 0 }))) := by
  rw [ahdrBody, requireWritten_bind_eq_error, requireWindow_bind_eq_error, requireBounds_bind_eq_error, pure_eq_error,
    and_false, or_false]

/-- The offset ANEXT names is a sum of numbers; read as a word it is the sum of the words, wrapping or not (R139). -/
theorem ofNat_toNat_add (x : Word64) (n : Nat) : BitVec.ofNat 64 (x.toNat + n) = x + BitVec.ofNat 64 n := by
  rw [BitVec.ofNat_add, BitVec.ofNat_toNat, BitVec.setWidth_eq]

/-- What ANEXT raises for the record at RPTR in a payload inside `MEM`: its header, its name or its data does not lie in
the payload (R138, R164); `anextBody_eq_error` ties it to the command. -/
def RecordOutOfBounds (s : State) (f : Raised) : Prop :=
  (s.regs.payLen.toNat < s.rptr.toNat + 16 ∧ f = { cause := .boundsFault, info := s.rptr }) ∨
    (s.rptr.toNat + 16 ≤ s.regs.payLen.toNat ∧
      ((s.regs.payLen.toNat < s.rptr.toNat + 16 + (s.payField (s.rptr.toNat + 4)).toNat ∧
          f = { cause := .boundsFault, info := s.rptr + 4 }) ∨
        (s.rptr.toNat + 16 + (s.payField (s.rptr.toNat + 4)).toNat ≤ s.regs.payLen.toNat ∧
          s.regs.payLen.toNat <
            s.ah.doff.toNat + (s.payField (s.rptr.toNat + 8)).toNat + (s.payField (s.rptr.toNat + 12)).toNat ∧
          f = { cause := .boundsFault, info := s.rptr + 8 })))

theorem RecordOutOfBounds.cause_eq (h : RecordOutOfBounds s f) : f.cause = .boundsFault := by
  rcases h with ⟨-, rfl⟩ | ⟨-, ⟨-, rfl⟩ | ⟨-, -, rfl⟩⟩ <;> rfl

theorem anextBody_eq_error : anextBody s = .error f ↔
    ((s.status.arcok || s.status.notarc) = false ∧ f = { cause := .sequenceFault, info := 0x21 }) ∨
      ((s.status.arcok || s.status.notarc) = true ∧ s.walkFinished = false ∧
        ((∃ r, s.firstUnwritten [.payBase, .payLen] = some r ∧ f = unwrittenFault r) ∨
          (s.allWritten [.payBase, .payLen] ∧
            ((s.cfg.memSize < s.regs.payBase.toNat + s.regs.payLen.toNat ∧
                f = { cause := .accessFault, info := s.regs.payBase }) ∨
              (s.regs.payBase.toNat + s.regs.payLen.toNat ≤ s.cfg.memSize ∧ RecordOutOfBounds s f))))) := by
  rw [anextBody, requireSequence_bind_eq_error]
  cases hw : s.walkFinished with
  | true => simp [pure_eq_error]
  | false =>
    rw [if_neg Bool.false_ne_true, requireWritten_bind_eq_error, requireWindow_bind_eq_error,
      requireBounds_bind_eq_error, requireBounds_bind_eq_error, requireBounds_bind_eq_error, pure_eq_error,
      and_false, or_false, ofNat_toNat_add, ofNat_toNat_add, eq_self, true_and]
    rfl

end Commands

/-! The two tables of tests that come before a command's work, and what they decide. -/

/-- A command's prerequisite, tested as flags of STATUS (R166). -/
def prerequisite : Instr → Status → Bool
  | .cxorb, st => st.seeded
  | .capply, st => st.seeded
  | .dchk, st => st.crhv
  | .anext, st => st.arcok || st.notarc
  | .cinit, _ => true
  | .rdcrh, _ => true
  | .ahdr, _ => true
  | .srst, _ => true

/-- The registers a command reads, in the order it tests them (R167). -/
def commandRegs : Instr → List RWReg
  | .cinit => cinitRegs
  | .cxorb => [.din]
  | .capply => [.bufBase, .bufCnt]
  | .rdcrh => [.payBase, .payLen]
  | .dchk => [.retLen]
  | .ahdr => [.magic, .payBase, .payLen]
  | .anext => [.payBase, .payLen]
  | .srst => []

section Tables

variable {i : Instr} {s t : State} {f : Raised}

theorem commandBody_of_no_prerequisite (h : prerequisite i s.status = false) :
    commandBody i s = .error { cause := .sequenceFault, info := (commandOpcode i).setWidth 64 } := by
  cases i with
  | cxorb => exact cxorbBody_eq_error.2 (.inl ⟨h, rfl⟩)
  | capply => exact capplyBody_eq_error.2 (.inl ⟨h, rfl⟩)
  | dchk => exact dchkBody_eq_error.2 (.inl ⟨h, rfl⟩)
  | anext => exact anextBody_eq_error.2 (.inl ⟨h, rfl⟩)
  | cinit | rdcrh | ahdr | srst => exact absurd h nofun

/-- The test of the registers comes next, but for an ANEXT that has no record left to read (R138, R167). -/
theorem commandBody_of_firstUnwritten {r : RWReg} (hpre : prerequisite i s.status = true)
    (hrec : i = .anext → s.walkFinished = false) (hr : s.firstUnwritten (commandRegs i) = some r) :
    commandBody i s = .error (unwrittenFault r) := by
  cases i with
  | cinit => exact cinitBody_eq_error.2 ⟨r, hr, rfl⟩
  | cxorb => exact cxorbBody_eq_error.2 (.inr ⟨hpre, r, hr, rfl⟩)
  | capply => exact capplyBody_eq_error.2 (.inr ⟨hpre, .inl ⟨r, hr, rfl⟩⟩)
  | rdcrh => exact rdcrhBody_eq_error.2 (.inl ⟨r, hr, rfl⟩)
  | dchk => exact dchkBody_eq_error.2 (.inr ⟨hpre, .inl ⟨r, hr, rfl⟩⟩)
  | ahdr => exact ahdrBody_eq_error.2 (.inl ⟨r, hr, rfl⟩)
  | anext => exact anextBody_eq_error.2 (.inr ⟨hpre, hrec rfl, .inl ⟨r, hr, rfl⟩⟩)
  | srst => exact absurd hr nofun

/-- Whatever a command raises, the two tables account for the causes `SequenceFault` and `UnwrittenRegister`. -/
theorem commandBody_error_cases (h : commandBody i s = .error f) :
    prerequisite i s.status = false ∨ (∃ r, s.firstUnwritten (commandRegs i) = some r ∧ f = unwrittenFault r) ∨
      (f.cause ≠ .sequenceFault ∧ f.cause ≠ .unwrittenRegister) := by
  cases i with
  | cinit => exact .inr (.inl (cinitBody_eq_error.1 h))
  | cxorb =>
    rcases cxorbBody_eq_error.1 h with ⟨hpre, -⟩ | ⟨-, hreg⟩
    · exact .inl hpre
    · exact .inr (.inl hreg)
  | capply =>
    rcases capplyBody_eq_error.1 h with ⟨hpre, -⟩ | ⟨-, hreg | ⟨-, -, rfl⟩⟩
    · exact .inl hpre
    · exact .inr (.inl hreg)
    · exact .inr (.inr ⟨nofun, nofun⟩)
  | rdcrh =>
    rcases rdcrhBody_eq_error.1 h with hreg | ⟨-, ⟨-, rfl⟩ | ⟨-, ⟨-, rfl⟩ | ⟨-, -, rfl⟩⟩⟩
    · exact .inr (.inl hreg)
    all_goals exact .inr (.inr ⟨nofun, nofun⟩)
  | dchk =>
    rcases dchkBody_eq_error.1 h with ⟨hpre, -⟩ | ⟨-, hreg | ⟨-, -, rfl⟩⟩
    · exact .inl hpre
    · exact .inr (.inl hreg)
    · exact .inr (.inr ⟨nofun, nofun⟩)
  | ahdr =>
    rcases ahdrBody_eq_error.1 h with hreg | ⟨-, ⟨-, rfl⟩ | ⟨-, -, rfl⟩⟩
    · exact .inr (.inl hreg)
    all_goals exact .inr (.inr ⟨nofun, nofun⟩)
  | anext =>
    rcases anextBody_eq_error.1 h with ⟨hpre, -⟩ | ⟨-, -, hreg | ⟨-, ⟨-, rfl⟩ | ⟨-, hrecord⟩⟩⟩
    · exact .inl hpre
    · exact .inr (.inl hreg)
    · exact .inr (.inr ⟨nofun, nofun⟩)
    · rw [hrecord.cause_eq]
      exact .inr (.inr ⟨nofun, nofun⟩)
  | srst => exact absurd h nofun

/-! From a command's body to the command. -/

/-- A command that goes through sets no fault: FAULTED is as before (R170). -/
theorem commandBody_ok_faulted (hi : i ≠ .srst) (h : commandBody i s = .ok t) :
    t.status.faulted = s.status.faulted := by
  cases i with
  | cinit => obtain ⟨-, rfl⟩ := cinitBody_eq_ok.1 h; rfl
  | cxorb => obtain ⟨-, -, rfl⟩ := cxorbBody_eq_ok.1 h; rfl
  | capply => obtain ⟨-, -, -, -, rfl⟩ := capplyBody_eq_ok.1 h; rfl
  | rdcrh => obtain ⟨-, -, -, -, rfl⟩ := rdcrhBody_eq_ok.1 h; rfl
  | dchk => obtain ⟨-, -, -, rfl⟩ := dchkBody_eq_ok.1 h; rfl
  | ahdr => obtain ⟨-, -, -, -, -, rfl⟩ := ahdrBody_eq_ok.1 h; rfl
  | anext => obtain ⟨-, ⟨-, rfl⟩ | ⟨-, -, -, -, -, -, rfl⟩⟩ := anextBody_eq_ok.1 h <;> rfl
  | srst => exact absurd rfl hi

theorem exec_srst (s : State) : exec .srst s = .next s.resetBlock := rfl

/-- A command that leaves FAULTED 1 where it was 0 has raised, and has latched what its body raises and nothing else. -/
theorem exec_faulted (hf : s.status.faulted = false) (hx : exec i s = .next t) (ht : t.status.faulted = true) :
    ∃ f, commandBody i s = .error f ∧ t = s.latched (causeCode f.cause) f.info := by
  by_cases hi : i = .srst
  · subst hi
    obtain rfl := Host.Outcome.next.inj (hx.symm.trans (exec_srst s))
    exact absurd ht nofun
  rcases exec_cases hi s with ⟨hf', -⟩ | ⟨-, u, hb, he⟩ | ⟨-, f, hb, he⟩
  · rw [hf] at hf'
    exact absurd hf' nofun
  · obtain rfl := Host.Outcome.next.inj (hx.symm.trans he)
    rw [commandBody_ok_faulted hi hb, hf] at ht
    exact absurd ht nofun
  · exact ⟨f, hb, by rw [Host.Outcome.next.inj (hx.symm.trans he), raise_eq_latched]⟩

theorem causeCode_eq_four_iff {c : FaultCause} : causeCode c = 4 ↔ c = .sequenceFault := by cases c <;> decide

theorem causeCode_eq_five_iff {c : FaultCause} : causeCode c = 5 ↔ c = .unwrittenRegister := by cases c <;> decide

/-- The table of prerequisites read forwards (R166). -/
theorem exec_of_no_prerequisite (hf : s.status.faulted = false) (h : prerequisite i s.status = false) :
    exec i s = .next (s.latched 4 ((commandOpcode i).setWidth 64)) :=
  exec_of_body_error (by rintro rfl; exact absurd h nofun) hf (commandBody_of_no_prerequisite h)

/-- The table of registers read forwards (R167). -/
theorem exec_of_firstUnwritten {r : RWReg} (hf : s.status.faulted = false) (hpre : prerequisite i s.status = true)
    (hrec : i = .anext → s.walkFinished = false) (hr : s.firstUnwritten (commandRegs i) = some r) :
    exec i s = .next (s.latched 5 (BitVec.ofNat 64 (rwNumber r))) :=
  exec_of_body_error (by rintro rfl; exact absurd hr nofun) hf (commandBody_of_firstUnwritten hpre hrec hr)

/-- With its prerequisite met, a command raises no `SequenceFault` (R166). -/
theorem fcause_ne_four_of_prerequisite (hf : s.status.faulted = false) (hpre : prerequisite i s.status = true)
    (hx : exec i s = .next t) (ht : t.status.faulted = true) : t.fcause ≠ 4 := by
  obtain ⟨f, hb, rfl⟩ := exec_faulted hf hx ht
  refine mt causeCode_eq_four_iff.1 ?_
  rcases commandBody_error_cases hb with hno | ⟨r, -, rfl⟩ | ⟨hseq, -⟩
  · rw [hpre] at hno
    exact absurd hno nofun
  · rw [unwrittenFault_cause]
    nofun
  · exact hseq

/-- With the registers it reads written, a command raises no `UnwrittenRegister`, whatever other registers are not
written (R167). -/
theorem fcause_ne_five_of_allWritten (hf : s.status.faulted = false) (hall : s.allWritten (commandRegs i))
    (ht : t.status.faulted = true) (hx : exec i s = .next t) : t.fcause ≠ 5 := by
  obtain ⟨f, hb, rfl⟩ := exec_faulted hf hx ht
  refine mt causeCode_eq_five_iff.1 ?_
  rcases commandBody_error_cases hb with hno | ⟨r, hr, -⟩ | ⟨-, hreg⟩
  · rw [commandBody_of_no_prerequisite hno] at hb
    obtain rfl := Except.error.inj hb
    nofun
  · rw [firstUnwritten_of_allWritten hall] at hr
    exact absurd hr nofun
  · exact hreg

end Tables

theorem walkFinished_eq_false {s : State} (hnot : s.status.notarc = false) (hidx : s.ridx ≠ s.ah.count) :
    s.walkFinished = false := by
  rw [State.walkFinished, hnot, Bool.false_or, beq_eq_false_iff_ne]
  exact hidx

theorem allWritten_pair {s : State} {r r' : RWReg} (h : s.wv r = true) (h' : s.wv r' = true) :
    s.allWritten [r, r'] := List.forall_mem_cons.2 ⟨h, List.forall_mem_singleton.2 h'⟩

/-! The obligations. -/

/-- Settles O51: `exec_faulted` says what a raising command leaves, and every cause has a code of 1 to 6. -/
theorem faultsArePrecise : Obligations.FaultsArePrecise := by
  intro i s t hf hx ht
  obtain ⟨f, -, rfl⟩ := exec_faulted hf hx ht
  obtain ⟨hlow, hhigh⟩ := causeCode_range f.cause
  exact ⟨causeCode f.cause, f.info, hlow, hhigh, rfl⟩

/-- Settles O47: the table `prerequisite`, which is constantly met for CINIT, RDCRH, AHDR and SRST. -/
theorem sequenceFaultTable : Obligations.SequenceFaultTable := by
  intro s hf
  refine ⟨fun hseed => ⟨?cxorb, ?capply⟩, fun hcrhv => ?dchk, fun harc hnot => ?anext, fun i hi t => ?never,
    ⟨s.resetBlock, exec_srst s, rfl⟩, fun t hseed hx ht => ?seeded, fun t hcrhv => ?crhv, fun t harc => ?walking⟩
  case cxorb => exact exec_of_no_prerequisite (i := .cxorb) hf hseed
  case capply => exact exec_of_no_prerequisite (i := .capply) hf hseed
  case dchk => exact exec_of_no_prerequisite (i := .dchk) hf hcrhv
  case anext => exact exec_of_no_prerequisite (i := .anext) hf (Bool.or_eq_false_iff.2 ⟨harc, hnot⟩)
  case never =>
    have hpre : prerequisite i s.status = true := by
      simp only [List.mem_cons, List.not_mem_nil, or_false] at hi
      rcases hi with rfl | rfl | rfl <;> rfl
    exact fcause_ne_four_of_prerequisite hf hpre
  case seeded =>
    rcases hx with hx | hx
    · exact fcause_ne_four_of_prerequisite (i := .cxorb) hf hseed hx ht
    · exact fcause_ne_four_of_prerequisite (i := .capply) hf hseed hx ht
  case crhv => exact fcause_ne_four_of_prerequisite (i := .dchk) hf hcrhv
  case walking => exact fcause_ne_four_of_prerequisite (i := .anext) hf (Bool.or_eq_true_iff.2 harc)

/-- Settles O48: the table `commandRegs` read forwards, and backwards for the commands with other faults of their own;
CINIT has none, so with its registers written it seeds. -/
theorem unwrittenRegisterTable : Obligations.UnwrittenRegisterTable := by
  intro s hf
  refine ⟨fun r => ⟨?cinit, ?cxorb, ?capply, ?rdcrh, ?dchk, ?ahdr, ?anext⟩, fun hall => ?seeds, fun t ht => ?only⟩
  case cinit => exact exec_of_firstUnwritten (i := .cinit) hf rfl nofun
  case cxorb => exact fun hseed => exec_of_firstUnwritten (i := .cxorb) hf hseed nofun
  case capply => exact fun hseed => exec_of_firstUnwritten (i := .capply) hf hseed nofun
  case rdcrh => exact exec_of_firstUnwritten (i := .rdcrh) hf rfl nofun
  case dchk => exact fun hcrhv => exec_of_firstUnwritten (i := .dchk) hf hcrhv nofun
  case ahdr => exact exec_of_firstUnwritten (i := .ahdr) hf rfl nofun
  case anext =>
    exact fun harc hnot hidx => exec_of_firstUnwritten (i := .anext) hf
      (Bool.or_eq_true_iff.2 (.inl harc)) (fun _ => walkFinished_eq_false hnot hidx)
  case seeds => exact ⟨cinitState s, exec_cinit_of_written hf hall, hf⟩
  case only =>
    have hne : ∀ i, s.allWritten (commandRegs i) → exec i s = .next t → t.fcause ≠ 5 :=
      fun _ hall => fcause_ne_five_of_allWritten hf hall ht
    exact ⟨hne .cxorb, hne .capply, hne .rdcrh, hne .dchk, hne .ahdr, hne .anext⟩

/-- Settles O49: the window check of the four commands that read or write `MEM`. -/
theorem accessFaultTable : Obligations.AccessFaultTable := by
  intro s hf
  refine ⟨fun hout hseed hbase hcnt => ?capply, fun hout hbase hlen =>
    ⟨?rdcrh, fun hmagic => ?ahdr, fun harc hnot hidx => ?anext⟩⟩
  case capply =>
    exact exec_of_body_error (i := .capply) nofun hf
      (capplyBody_eq_error.2 (.inr ⟨hseed, .inr ⟨allWritten_pair hbase hcnt, hout, rfl⟩⟩))
  all_goals have hpay : s.allWritten [.payBase, .payLen] := allWritten_pair hbase hlen
  case rdcrh =>
    exact exec_of_body_error (i := .rdcrh) nofun hf (rdcrhBody_eq_error.2 (.inr ⟨hpay, .inl ⟨hout, rfl⟩⟩))
  case ahdr =>
    have hregs : s.allWritten [.magic, .payBase, .payLen] := List.forall_mem_cons.2 ⟨hmagic, hpay⟩
    exact exec_of_body_error (i := .ahdr) nofun hf (ahdrBody_eq_error.2 (.inr ⟨hregs, .inl ⟨hout, rfl⟩⟩))
  case anext =>
    exact exec_of_body_error (i := .anext) nofun hf (anextBody_eq_error.2 (.inr
      ⟨Bool.or_eq_true_iff.2 (.inl harc), walkFinished_eq_false hnot hidx, .inr ⟨hpay, .inl ⟨hout, rfl⟩⟩⟩))

/-- Settles O50: the two bounds checks of RDCRH, the one of AHDR and the three of ANEXT. -/
theorem boundsFaultTable : Obligations.BoundsFaultTable := by
  intro s hf hbase hlen hin
  have hpay : s.allWritten [.payBase, .payLen] := allWritten_pair hbase hlen
  refine ⟨fun hshort => ?short, fun hhead hcsz => ?region, fun hmagic hshort => ?ahdr, fun harc hnot hidx => ?anext⟩
  case short =>
    exact exec_of_body_error (i := .rdcrh) nofun hf
      (rdcrhBody_eq_error.2 (.inr ⟨hpay, .inr ⟨hin, .inl ⟨hshort, rfl⟩⟩⟩))
  case region =>
    exact exec_of_body_error (i := .rdcrh) nofun hf
      (rdcrhBody_eq_error.2 (.inr ⟨hpay, .inr ⟨hin, .inr ⟨hhead, hcsz, rfl⟩⟩⟩))
  case ahdr =>
    have hregs : s.allWritten [.magic, .payBase, .payLen] := List.forall_mem_cons.2 ⟨hmagic, hpay⟩
    exact exec_of_body_error (i := .ahdr) nofun hf
      (ahdrBody_eq_error.2 (.inr ⟨hregs, .inr ⟨hin, hshort, rfl⟩⟩))
  case anext =>
    have hbounds {info : Word64} (h : RecordOutOfBounds s { cause := .boundsFault, info := info }) :
        exec .anext s = .next (s.latched 2 info) :=
      exec_of_body_error (i := .anext) nofun hf (anextBody_eq_error.2 (.inr
        ⟨Bool.or_eq_true_iff.2 (.inl harc), walkFinished_eq_false hnot hidx, .inr ⟨hpay, .inr ⟨hin, h⟩⟩⟩))
    exact ⟨fun hshort => hbounds (.inl ⟨hshort, rfl⟩),
      fun hrec hname => hbounds (.inr ⟨hrec, .inl ⟨hname, rfl⟩⟩),
      fun hname hdata => hbounds (.inr ⟨Nat.le_of_add_right_le hname, .inr ⟨hname, hdata, rfl⟩⟩)⟩

end Sys2Proof.Proofs.Exceptions
end

section
/-! The decoder's domain and its inverse (30_encoding.md). -/

namespace Sys2Proof.Proofs.Decoder

open Sys2Proof.Proofs.Encoding (opcodeCommand_eq_some_iff decode_eq_ok_iff decode_eq_ok_iff_fields)

/-- The assigned opcodes are the opcodes of the commands (R71). -/
theorem mem_assignedOpcodes_iff {op : BitVec 8} : op ∈ assignedOpcodes ↔ ∃ i, op = commandOpcode i := by
  constructor
  · intro h
    simp only [assignedOpcodes, List.mem_cons, List.not_mem_nil, or_false] at h
    rcases h with rfl | rfl | rfl | rfl | rfl | rfl | rfl | rfl
    exacts [⟨.cinit, rfl⟩, ⟨.cxorb, rfl⟩, ⟨.capply, rfl⟩, ⟨.rdcrh, rfl⟩, ⟨.dchk, rfl⟩, ⟨.ahdr, rfl⟩, ⟨.anext, rfl⟩,
      ⟨.srst, rfl⟩]
  · rintro ⟨i, rfl⟩
    cases i <;> decide

theorem wellFormed_iff {c : CommandWord} : c.wellFormed = true ↔ c.zero = 0 ∧ ∃ i, c.op = commandOpcode i := by
  rw [CommandWord.wellFormed, Bool.and_eq_true, beq_iff_eq, List.contains_iff_mem, mem_assignedOpcodes_iff]

/-- Settles O2: every command is well formed, and its word is its only one (R70, R72). -/
theorem decodeAndEncodeAgree : Obligations.DecodeAndEncodeAgree := fun _ _ _ => decode_eq_ok_iff

/-- Settles O3: the decoder looks at the two fields, and the legality check looks at the same two. -/
theorem decodeAcceptsExactlyTheWellFormedWords : Obligations.DecodeAcceptsExactlyTheWellFormedWords := by
  intro w
  simp only [decode_eq_ok_iff_fields, opcodeCommand_eq_some_iff, exists_and_left, wellFormed_iff]

/-- Settles O4: seven words, evaluated. -/
theorem sampleWordsDecode : Obligations.SampleWordsDecode := by
  unfold Obligations.SampleWordsDecode
  decide

end Sys2Proof.Proofs.Decoder
end

section
/-! One step: what serving a host access does (10_state.md R26, R30; 30_encoding.md R70; 60_exceptions.md R170;
70_reset_and_hazards.md R185). -/

namespace Sys2Proof.Proofs.Stepping

open Sys2Proof Sys2Proof.Machine
open Sys2Proof.Proofs.Encoding (decode_eq_ok_iff encode_mem_matchWords)
open Sys2Proof.Proofs.Exceptions (exec_srst)

/-! The kinds of access, each on a state in which it waits first. -/

theorem step_command {s : State} {w : Word64} {rest : List HostAccess} (h : s.pending = .wr 0x00 w :: rest) :
    step s = issueCommand w { s with pending := rest } := by
  rw [step_cons h, serve_wr_cmd]

theorem step_legal {s : State} {w : Word64} {rest : List HostAccess} {i : Instr}
    (h : s.pending = .wr 0x00 w :: rest) (hd : decode w = .ok i) : step s = exec i { s with pending := rest } := by
  rw [step_command h, issueCommand, hd]

/-- A word that is none of the eight decodes to no command, so what FAULTED holds decides (R168, R171). -/
theorem step_illegal {s : State} {w : Word64} {rest : List HostAccess} {why : IllegalWord}
    (h : s.pending = .wr 0x00 w :: rest) (hd : decode w = .error why) :
    step s = if s.status.faulted then .next { s with pending := rest }
      else .next (({ s with pending := rest } : State).latched 6 w) := by
  rw [step_command h, issueCommand, hd]
  rfl

theorem step_register_write {s : State} {r : RWReg} {v : Word64} {rest : List HostAccess}
    (h : s.pending = .wr (rwNumber r) v :: rest) :
    step s = .next (({ s with pending := rest } : State).writeRW r v) := by
  rw [step_cons h, serve_wr_rw]

theorem step_register_read {s : State} {n : Nat} {rest : List HostAccess} (h : s.pending = .rd n :: rest) :
    step s = .next { s with pending := rest, replies := s.replies ++ [.register (s.readNumber n)] } := by
  rw [step_cons h]
  rfl

theorem step_store {s : State} {addr : Nat} {bs : List Byte} {rest : List HostAccess}
    (h : s.pending = .memStore addr bs :: rest) :
    step s = if addr + bs.length ≤ s.cfg.memSize then
        .next { s with pending := rest, mem := s.mem.writeBytes addr bs }
      else .fault (.hostAddressOutsideMem addr bs.length) := by
  rw [step_cons h]
  simp only [serve, HostAccess.wellFormed, decide_eq_true_eq]

theorem step_load {s : State} {addr n : Nat} {rest : List HostAccess} (h : s.pending = .memLoad addr n :: rest) :
    step s = if addr + n ≤ s.cfg.memSize then
        .next { s with pending := rest, replies := s.replies ++ [.bytes (s.mem.readBytes addr n)] }
      else .fault (.hostAddressOutsideMem addr n) := by
  rw [step_cons h]
  simp only [serve, HostAccess.wellFormed, decide_eq_true_eq]
  rfl

theorem step_reset {s : State} {rest : List HostAccess} (h : s.pending = .hardReset :: rest) :
    step s = .next ({ s with pending := rest } : State).resetBlock := by
  rw [step_cons h]
  rfl

/-- A command that is ignored, or that raises, or whose body answers a state: none stops the model (R170, R202). -/
theorem exec_total (i : Instr) (s : State) : ∃ t, exec i s = .next t := by
  by_cases hi : i = .srst
  · exact ⟨s.resetBlock, hi ▸ exec_srst s⟩
  · rcases exec_cases hi s with ⟨-, he⟩ | ⟨-, t, -, he⟩ | ⟨-, f, -, he⟩
    exacts [⟨s, he⟩, ⟨t, he⟩, ⟨s.raise f, he⟩]

/-! What a step can do. -/

/-- The states one step can lead to, by what the step did to the block. `StepEffect.of_step` ties it to `step`. -/
inductive StepEffect (s : State) : State → Prop
  /-- Nothing but the two lists of host traffic: no access, a read, an ignored write, an ignored command. -/
  | quiet (waiting : List HostAccess) (answered : List HostReply) :
      StepEffect s { s with pending := waiting, replies := answered }
  /-- A fault was latched: by a command, or by a word that is none. -/
  | raised (rest : List HostAccess) (f : Raised) (hf : s.status.faulted = false) :
      StepEffect s (({ s with pending := rest } : State).raise f)
  /-- A command other than SRST took effect. -/
  | ran (i : Instr) (rest : List HostAccess) (t : State) (hi : i ≠ .srst) (hf : s.status.faulted = false)
      (hp : s.pending = .wr 0x00 (encode i) :: rest) (hb : commandBody i { s with pending := rest } = .ok t) :
      StepEffect s t
  /-- The host wrote an `RW` register. -/
  | wrote (rest : List HostAccess) (r : RWReg) (v : Word64) :
      StepEffect s (({ s with pending := rest } : State).writeRW r v)
  /-- The host stored bytes inside `MEM`. -/
  | stored (addr : Nat) (bs : List Byte) (rest : List HostAccess) (hp : s.pending = .memStore addr bs :: rest)
      (hin : addr + bs.length ≤ s.cfg.memSize) :
      StepEffect s { s with pending := rest, mem := s.mem.writeBytes addr bs }
  /-- The block was reset, by SRST or by the reset input. -/
  | reset (rest : List HostAccess) (hp : s.pending = .wr 0x00 0xFF :: rest ∨ s.pending = .hardReset :: rest) :
      StepEffect s ({ s with pending := rest } : State).resetBlock

theorem StepEffect.of_exec {s t : State} {i : Instr} {rest : List HostAccess}
    (hp : s.pending = .wr 0x00 (encode i) :: rest) (hx : exec i { s with pending := rest } = .next t) :
    StepEffect s t := by
  by_cases hi : i = .srst
  · subst hi
    obtain rfl := Host.Outcome.next.inj hx
    exact .reset rest (.inl hp)
  · rcases exec_cases hi { s with pending := rest } with ⟨-, he⟩ | ⟨hf, u, hb, he⟩ | ⟨hf, f, -, he⟩ <;>
      obtain rfl := Host.Outcome.next.inj (hx.symm.trans he)
    · exact .quiet rest s.replies
    · exact .ran i rest t hi hf hp hb
    · exact .raised rest f hf

theorem StepEffect.of_serve {s t : State} {a : HostAccess} {rest : List HostAccess} (hp : s.pending = a :: rest)
    (hs : serve a { s with pending := rest } = .next t) : StepEffect s t := by
  rcases serve_cases a { s with pending := rest } with ⟨w, i, rfl, hd, he⟩ | ⟨w, _, rfl, -, -, he⟩ |
    ⟨w, _, rfl, -, hf, he⟩ | ⟨r, v, rfl, he⟩ | ⟨n, v, rfl, he⟩ | ⟨n, rfl, he⟩ | ⟨addr, bs, rfl, hin, he⟩ |
    ⟨addr, n, rfl, -, he⟩ | ⟨addr, n, -, -, he⟩ | ⟨rfl, he⟩
  case inl =>
    rw [decode_eq_ok_iff.1 hd] at hp
    exact .of_exec hp (he.symm.trans hs)
  all_goals have hout := he.symm.trans hs
  case inr.inr.inr.inr.inr.inr.inr.inr.inl => exact absurd hout nofun
  all_goals obtain rfl := Host.Outcome.next.inj hout
  · exact .quiet rest s.replies
  · exact .raised rest _ hf
  · exact .wrote rest r v
  · exact .quiet rest s.replies
  · exact .quiet rest _
  · exact .stored addr bs rest hp hin
  · exact .quiet rest _
  · exact .reset rest (.inr hp)

/-- Everything a step that answers a next state can have done. -/
theorem StepEffect.of_step {s t : State} (h : step s = .next t) : StepEffect s t := by
  cases hp : s.pending with
  | nil =>
    obtain rfl := Host.Outcome.next.inj ((step_nil hp).symm.trans h)
    exact .quiet s.pending s.replies
  | cons a rest => exact .of_serve hp ((step_cons hp).symm.trans h)

/-! The obligations. -/

/-- Settles O5: the access served is a command, and the decoder names it. -/
theorem stepRunsTheDecodedCommand : Obligations.StepRunsTheDecodedCommand := fun _ _ _ _ h hd => step_legal h hd

/-- Settles O6: a word off the list of the eight decodes to no command, and FAULTED is 0. -/
theorem illegalWordRaisesIllegalCommand : Obligations.IllegalWordRaisesIllegalCommand := by
  intro s w rest h hf hw
  cases hd : decode w with
  | ok i =>
    obtain rfl := decode_eq_ok_iff.1 hd
    exact absurd (encode_mem_matchWords i) hw
  | error why => rw [step_illegal h hd, hf, if_neg Bool.false_ne_true]

/-- Settles O14. -/
theorem idleBlockWaits : Obligations.IdleBlockWaits := fun _ h => step_nil h

/-- Settles O15: `exec_total` for the commands; of the host's other accesses only the two to `MEM` can stop the
model. -/
theorem onlyHostAddressesOutsideMemStopTheRun : Obligations.OnlyHostAddressesOutsideMemStopTheRun := by
  refine ⟨exec_total, fun s => ?_⟩
  cases hp : s.pending with
  | nil => exact .inl ⟨s, step_nil hp⟩
  | cons a rest =>
    rw [step_cons hp]
    rcases serve_cases a { s with pending := rest } with ⟨w, i, -, -, he⟩ | ⟨_, _, -, -, -, he⟩ |
      ⟨_, _, -, -, -, he⟩ | ⟨_, _, -, he⟩ | ⟨_, _, -, he⟩ | ⟨_, -, he⟩ | ⟨_, _, -, -, he⟩ | ⟨_, _, -, -, he⟩ |
      ⟨addr, n, haccess, hout, he⟩ | ⟨-, he⟩
    case inl =>
      rw [he]
      exact .inl (exec_total i _)
    case inr.inr.inr.inr.inr.inr.inr.inr.inl =>
      refine .inr ⟨addr, n, he, hout, ?_⟩
      rcases haccess with ⟨bs, rfl, hlen⟩ | rfl
      · exact .inl ⟨bs, rest, rfl, hlen⟩
      · exact .inr ⟨rest, rfl⟩
    all_goals exact .inl ⟨_, he⟩

/-- Settles O16: the witness is the reset block itself. -/
theorem resetGivesEveryResetValue : Obligations.ResetGivesEveryResetValue :=
  fun s => ⟨s.resetBlock, rfl, rfl, rfl, rfl, rfl, rfl, rfl, rfl, rfl, rfl, rfl, rfl, rfl, rfl, rfl, rfl, exec_srst s⟩

/-- Settles O17: both answer the reset block. -/
theorem resetInputActsAsSrst : Obligations.ResetInputActsAsSrst :=
  fun _ _ h => ⟨_, step_reset h, exec_srst _, rfl, rfl⟩

end Sys2Proof.Proofs.Stepping
end

section
/-! The register file as the host sees it: numbers, reads and writes (10_state.md R30, R31, R32, R42; 45_system_ops.md
R151). -/

namespace Sys2Proof.Proofs.RegisterMap

open Sys2Proof Sys2Proof.Machine
open Sys2Proof.Proofs.Stepping

/-! The map. -/

theorem regOfNumber_eq_none_iff {n : Nat} : regOfNumber n = none ↔ ∀ r, n ≠ regNumber r := by
  constructor
  · rintro h r rfl
    rw [regOfNumber_regNumber] at h
    exact absurd h nofun
  · intro h
    cases hr : regOfNumber n with
    | none => rfl
    | some r => exact absurd (regOfNumber_eq_some.1 hr) (h r)

/-- Where the registers' numbers lie (R31). -/
theorem regNumber_range (r : Reg) :
    regNumber r ≤ 0x04 ∨ regNumber r = 0x08 ∨ (0x10 ≤ regNumber r ∧ regNumber r ≤ 0x1C) ∨
      (0x20 ≤ regNumber r ∧ regNumber r ≤ 0x43) ∨ (0x48 ≤ regNumber r ∧ regNumber r ≤ 0x49) ∨
      (0x50 ≤ regNumber r ∧ regNumber r ≤ 0x55) ∨ (0x58 ≤ regNumber r ∧ regNumber r ≤ 0x5D) := by
  rcases r with _ | r | r
  · decide
  · cases r with
    | key i =>
      have hn : regNumber (.rw (.key i)) = 0x10 + i.val := rfl
      omega
    | _ => decide
  · cases r with
    | x i =>
      have hn : regNumber (.ro (.x i)) = 0x20 + i.val := rfl
      omega
    | ksw i =>
      have hn : regNumber (.ro (.ksw i)) = 0x30 + i.val := rfl
      omega
    | _ => decide

theorem regOfNumber_key (i : Fin 8) : regOfNumber (0x10 + i.val) = some (.rw (.key i)) := regOfNumber_rwNumber (.key i)

/-! Reads. -/

theorem readNumber_rwNumber (s : State) (r : RWReg) : s.readNumber (rwNumber r) = s.regs.read r := by
  rw [State.readNumber, regOfNumber_rwNumber]

theorem readNumber_roNumber (s : State) (r : ROReg) : s.readNumber (roNumber r) = s.readRO r := by
  rw [State.readNumber, regOfNumber_roNumber]

/-- A number of the map that is not an `RW` or an `RO` register's is CMD's, which reads as 0 like the reserved ones. -/
theorem readNumber_of_ne {s : State} {n : Nat} (hrw : ∀ r, n ≠ rwNumber r) (hro : ∀ r, n ≠ roNumber r) :
    s.readNumber n = 0 := by
  unfold State.readNumber
  cases hr : regOfNumber n with
  | none => rfl
  | some r =>
    obtain rfl := regOfNumber_eq_some.1 hr
    cases r with
    | cmd => rfl
    | rw r => exact absurd rfl (hrw r)
    | ro r => exact absurd rfl (hro r)

/-- A narrow value in a 64-bit reply keeps its number and stays within its width (R30). -/
theorem toNat_zeroExtend {w : Nat} (hw : w ≤ 64) (v : BitVec w) : (v.setWidth 64).toNat = v.toNat :=
  BitVec.toNat_setWidth_of_le hw

theorem toNat_zeroExtend_lt {w : Nat} (hw : w ≤ 64) (v : BitVec w) : (v.setWidth 64).toNat < 2 ^ w := by
  rw [toNat_zeroExtend hw]
  exact v.isLt

theorem toNat_read_lt (h : HostRegs) (r : RWReg) : (h.read r).toNat < 2 ^ rwWidth r := by
  cases r with
  | key i => exact toNat_zeroExtend_lt (by decide) h.key[i]
  | din => exact toNat_zeroExtend_lt (by decide) h.din
  | magic => exact toNat_zeroExtend_lt (by decide) h.magic
  | len | bufBase | bufCnt | payBase | payLen | retLen => exact BitVec.isLt _

theorem toNat_readRO_cur (s : State) : (s.readRO .cur).toNat = s.cipher.cur.val := by
  have hcur := s.cipher.cur.isLt
  exact Nat.mod_eq_of_lt (by omega)

theorem toNat_readRO_lt (s : State) (r : ROReg) : (s.readRO r).toNat < 2 ^ roWidth r := by
  cases r with
  | cur =>
    rw [toNat_readRO_cur]
    exact Nat.lt_trans s.cipher.cur.isLt (by decide)
  | finfo | rptr | frNamep | frDatap => exact BitVec.isLt _
  | _ => exact toNat_zeroExtend_lt (by decide) _

/-! The flags of STATUS and of WVALID. -/

/-- STATUS is its eight flags, SEEDED lowest, with nothing above (R32). -/
theorem toBits_eq_bits (st : Status) :
    st.toBits = BitVec.ofNat 16 (Nat.bit st.seeded (Nat.bit st.faulted (Nat.bit st.arcok (Nat.bit st.notarc
      (Nat.bit st.recv (Nat.bit st.ended (Nat.bit st.crhv (Nat.bit st.dcok 0)))))))) := by
  unfold Status.toBits
  congr 1
  simp only [Nat.bit_val]
  omega

theorem getLsbD_toBits_of_le {i : Nat} (st : Status) (h : 8 ≤ i) : st.toBits.getLsbD i = false := by
  obtain ⟨j, rfl⟩ := Nat.exists_eq_add_of_le' h
  simp only [toBits_eq_bits, BitVec.getLsbD_ofNat, Nat.testBit_bit_succ, Nat.zero_testBit, Bool.and_false]

theorem readNumber_status (s : State) : s.readNumber 0x01 = s.status.toBits.setWidth 64 :=
  readNumber_roNumber s .status

/-- A bit of the WVALID number is the written-valid bit of that index (R31, R42). -/
theorem getLsbD_readNumber_wvalid (s : State) (i : Nat) : (s.readNumber 0x04).getLsbD i = s.wvalid.getLsbD i := by
  have hread : s.readNumber 0x04 = s.wvalid.setWidth 64 := readNumber_roNumber s .wvalid
  rw [hread, BitVec.getLsbD_setWidth]
  by_cases h : i < 64
  · simp [h]
  · rw [BitVec.getLsbD_of_ge _ _ (by omega)]
    simp

/-! The state right after reset. -/

theorem resetWith_read (cfg : Config) (r : RWReg) : (State.resetWith cfg).regs.read r = 0 := by
  cases r with
  | key i => simp [State.resetWith, HostRegs.read]
  | _ => rfl

theorem kswWord_zero (i : Fin 16) : kswWord (Vector.replicate 64 0) i = 0 := by
  simp only [kswWord, Vector.getElem_replicate]
  decide

theorem resetWith_readRO (cfg : Config) {r : ROReg} (h : r ≠ .cur) : (State.resetWith cfg).readRO r = 0 := by
  cases r with
  | cur => exact absurd rfl h
  | x i => simp [State.resetWith, State.readRO]
  | ksw i => exact congrArg (BitVec.setWidth 64) (kswWord_zero i)
  | _ => rfl

theorem reset_readNumber {n : Nat} (h : n ≠ 0x1C) : State.reset.readNumber n = 0 := by
  by_cases hrw : ∃ r, n = rwNumber r
  · obtain ⟨r, rfl⟩ := hrw
    rw [readNumber_rwNumber]
    exact resetWith_read _ r
  by_cases hro : ∃ r, n = roNumber r
  · obtain ⟨r, rfl⟩ := hro
    rw [readNumber_roNumber]
    exact resetWith_readRO _ (by rintro rfl; exact h rfl)
  exact readNumber_of_ne (not_exists.1 hrw) (not_exists.1 hro)

/-! The obligations. -/

/-- Settles O8: a write of an `RW` register is `writeRW`, whose laws say what it stores and which bit it sets; register
by register it is evaluated. -/
theorem registerAccessOperations : Obligations.RegisterAccessOperations := by
  intro s rest
  refine ⟨fun r v h => ⟨_, step_register_write h, rfl, fun r' => read_write _ r r' v, fun r' => writeRW_wv _ r r' v⟩,
    fun w => step_command, fun n v h hcmd hrw => ?ignored, fun n => step_register_read, fun v => ?registers⟩
  case ignored =>
    rw [step_cons h, serve, hostWrite]
    cases hr : regOfNumber n with
    | none => rfl
    | some r =>
      obtain rfl := regOfNumber_eq_some.1 hr
      cases r with
      | cmd => exact absurd rfl hcmd
      | rw r => exact absurd rfl (hrw r)
      | ro r => rfl
  case registers =>
    have hkey : ∀ i : Fin 8, 1#16 <<< wvIndex (.key i) = 0x0002#16 <<< i.val := by decide
    refine ⟨step_register_write (r := .len), fun i h => ?_, step_register_write (r := .bufBase),
      step_register_write (r := .bufCnt), step_register_write (r := .din), step_register_write (r := .magic),
      step_register_write (r := .payBase), step_register_write (r := .payLen), step_register_write (r := .retLen)⟩
    rw [step_register_write (r := .key i) h, State.writeRW, hkey]
    rfl

/-- Settles O9: each number is that of a register of the map, so a read of it is `read` or `readRO` of that register. -/
theorem readsAreZeroExtended : Obligations.ReadsAreZeroExtended := by
  intro s
  have hrw : ∀ r, s.readNumber (rwNumber r) = s.regs.read r := readNumber_rwNumber s
  have hro : ∀ r, s.readNumber (roNumber r) = s.readRO r := readNumber_roNumber s
  have hrwNat : ∀ r, (s.readNumber (rwNumber r)).toNat = (s.regs.read r).toNat := fun r => congrArg _ (hrw r)
  have hroNat : ∀ r, (s.readNumber (roNumber r)).toNat = (s.readRO r).toNat := fun r => congrArg _ (hro r)
  have word : ∀ v : Word, (v.setWidth 64).toNat = v.toNat := toNat_zeroExtend (by decide)
  refine ⟨fun r => ⟨hrw r, hrw r ▸ toNat_read_lt s.regs r⟩, fun r => ⟨hro r, hro r ▸ toNat_readRO_lt s r⟩, rfl,
    fun n h h' => readNumber_of_ne h h', (hroNat .fcause).trans (toNat_zeroExtend (by decide) _),
    hro .finfo, (hroNat .wvalid).trans (toNat_zeroExtend (by decide) _), hrw .len,
    fun i => (hrwNat (.key i)).trans (word _), hrw .bufBase, hrw .bufCnt,
    (hrwNat .din).trans (toNat_zeroExtend (by decide) _), (hrwNat .magic).trans (word _),
    hrw .payBase, hrw .payLen, hrw .retLen, (hroNat .crhMax).trans (word _),
    (hroNat .crhCsz).trans (word _), (hroNat .ahMagic).trans (word _),
    (hroNat .ahRsvd).trans (word _), (hroNat .ahCount).trans (word _),
    (hroNat .ahDoff).trans (word _), hro .rptr, (hroNat .ridx).trans (word _),
    (hroNat .frUnk).trans (word _), (hroNat .frNlen).trans (word _),
    (hroNat .frOff).trans (word _), (hroNat .frSize).trans (word _), hro .frNamep, hro .frDatap,
    ?_⟩
  have hbit := getLsbD_readNumber_wvalid s
  exact ⟨hbit 0, fun i => hbit _, hbit 9, hbit 10, hbit 11, hbit 12, hbit 13, hbit 14, hbit 15,
    fun i hi => (hbit i).trans (BitVec.getLsbD_of_ge _ _ hi)⟩

/-- Settles O10: each number of the table is `regNumber` of its register, and the reserved ones lie between the
ranges. -/
theorem registerMapNumbers : Obligations.RegisterMapNumbers := by
  refine ⟨rfl, rfl, rfl, rfl, rfl, rfl, regOfNumber_key, rfl, rfl, rfl, rfl, rfl,
    fun i => regOfNumber_roNumber (.x i), fun i => regOfNumber_roNumber (.ksw i), rfl, rfl, rfl, rfl, rfl, rfl, rfl,
    rfl, rfl, rfl, rfl, rfl, rfl, rfl, rfl, rfl, rfl, rfl, fun n hn => regOfNumber_eq_none_iff.2 fun r hr => ?_⟩
  have hrange := regNumber_range r
  omega

/-- Settles O11: STATUS is read as its bits, lowest flag first. -/
theorem statusReadsItsFlags : Obligations.StatusReadsItsFlags := by
  intro s
  rw [readNumber_status]
  refine ⟨?_, ?_, ?_, ?_, ?_, ?_, ?_, ?_, fun i hi => ?_⟩
  case refine_9 => rw [BitVec.getLsbD_setWidth, getLsbD_toBits_of_le s.status hi, Bool.and_false]
  all_goals
    simp only [BitVec.getLsbD_setWidth, toBits_eq_bits, BitVec.getLsbD_ofNat, Nat.testBit_bit_succ,
      Nat.testBit_bit_zero]
    rfl

/-- Settles O12: the four views, KSWi through the little-endian word. -/
theorem cipherViewsShowTheState : Obligations.CipherViewsShowTheState := by
  intro s i
  have hro : ∀ r, (s.readNumber (roNumber r)).toNat = (s.readRO r).toNat :=
    fun r => congrArg BitVec.toNat (readNumber_roNumber s r)
  refine ⟨(hro (.ksw i)).trans ?_, (hro (.x i)).trans (toNat_zeroExtend (by decide) _),
    (hro .cur).trans (toNat_readRO_cur s), (hro .dout).trans (toNat_zeroExtend (by decide) _)⟩
  rw [State.readRO, toNat_zeroExtend (by decide), kswWord, toNat_le32]

/-- Settles O18: CUR is the only register whose reset value is not 0. -/
theorem resetStateReadsAsTheTable : Obligations.ResetStateReadsAsTheTable := by
  have hzero : ∀ n, n ≠ 0x1C → State.reset.readNumber n = 0 := fun _ => reset_readNumber
  exact ⟨hzero _ (by decide), hzero _ (by decide), hzero _ (by decide), hzero _ (by decide),
    readNumber_roNumber State.reset .cur, hzero, rfl, rfl, rfl, rfl⟩

end Sys2Proof.Proofs.RegisterMap
end

section
/-! The host's accesses to a faulted block, and to `MEM` (60_exceptions.md R171; 10_state.md R44; 20_memory.md R50). -/

namespace Sys2Proof.Proofs.HostPort

open Sys2Proof Sys2Proof.Machine
open Sys2Proof.Proofs.Encoding (decode_eq_ok_iff)
open Sys2Proof.Proofs.Stepping

/-- While FAULTED is 1 every word written to CMD but SRST's is ignored, the legal ones by the commands' frame (R171). -/
theorem step_command_of_faulted {s : State} {w : Word64} {rest : List HostAccess} (hf : s.status.faulted = true)
    (h : s.pending = .wr 0x00 w :: rest) (hw : w ≠ 0xFF) : step s = .next { s with pending := rest } := by
  cases hd : decode w with
  | error why => rw [step_illegal h hd, hf, if_pos rfl]
  | ok i =>
    have hi : i ≠ .srst := by
      rintro rfl
      exact hw (decode_eq_ok_iff.1 hd)
    rw [step_legal h hd, exec_eq_runCommand hi]
    exact runCommand_of_faulted hf

theorem writeRW_wv_self (s : State) (r : RWReg) (v : Word64) : (s.writeRW r v).wv r = true := by
  rw [writeRW_wv, decide_eq_true rfl, Bool.or_true]

/-- Settles O7: the kinds of access one by one; a register write is `writeRW`, which leaves the rest alone. -/
theorem faultedBlockServesOnlyRegisters : Obligations.FaultedBlockServesOnlyRegisters := by
  intro s rest hf
  refine ⟨fun w => step_command_of_faulted hf, fun n => step_register_read, fun r v h => ?_, fun a n h hin => ?_⟩
  · exact ⟨_, step_register_write h, writeRW_wv_self _ r v, rfl, rfl, rfl, rfl, rfl, rfl⟩
  · rw [step_load h, if_pos hin]

/-- Settles O13: the range check decides, and a store inside `MEM` is `writeBytes`. -/
theorem hostMemoryAccess : Obligations.HostMemoryAccess := by
  intro s rest addr hwf
  refine ⟨fun bs h => ?_, fun n h => ?_⟩
  · rw [step_store h]
    split
    · next hin => exact ⟨_, rfl, fun a => readByte_writeBytes hin hwf⟩
    · rfl
  · rw [step_load h]
    split <;> rfl

end Sys2Proof.Proofs.HostPort
end

section
/-! The quarter-round (41_keystream_block.md R101; 00_scope.md R13). -/

namespace Sys2Proof.Proofs.QuarterRound

open Sys2Proof Sys2Proof.Machine

/-! The rotation. -/

theorem two_pow_word_split {n : Nat} (hn : n < 32) : 2 ^ 32 = 2 ^ (32 - n) * 2 ^ n := by
  rw [← Nat.pow_add, Nat.sub_add_cancel hn.le]

theorem topBits_lt (v : Word) {n : Nat} (hn : n < 32) : v.toNat / 2 ^ (32 - n) < 2 ^ n :=
  Nat.div_lt_of_lt_mul (two_pow_word_split hn ▸ v.isLt)

/-- A rotation as a number: the low `32 - n` bits move up, the high `n` bits come back below (R13). -/
theorem toNat_rotateLeft_split (v : Word) {n : Nat} (hn : n < 32) :
    (v.rotateLeft n).toNat = v.toNat % 2 ^ (32 - n) * 2 ^ n + v.toNat / 2 ^ (32 - n) := by
  rw [BitVec.toNat_rotateLeft, Nat.mod_eq_of_lt hn, Nat.shiftLeft_eq, Nat.shiftRight_eq_div_pow, two_pow_word_split hn,
    Nat.mul_mod_mul_right, ← Nat.shiftLeft_eq, Nat.shiftLeft_add_eq_or_of_lt (topBits_lt v hn)]

/-- `rotl32` as R13 writes it. -/
theorem rotateLeft_eq_ofNat (v : Word) {n : Nat} (hn : n < 32) :
    v.rotateLeft n = BitVec.ofNat 32 (v.toNat * 2 ^ n % 2 ^ 32 + v.toNat / 2 ^ (32 - n)) := by
  have hup : v.toNat * 2 ^ n % 2 ^ 32 = v.toNat % 2 ^ (32 - n) * 2 ^ n := by
    rw [two_pow_word_split hn, Nat.mul_mod_mul_right]
  rw [hup, ← toNat_rotateLeft_split v hn, BitVec.ofNat_toNat, BitVec.setWidth_eq]

theorem rotateLeft_injective {n : Nat} (hn : n < 32) : Function.Injective (fun v : Word => v.rotateLeft n) := by
  intro v v' h
  have hsum := congrArg BitVec.toNat h
  rw [toNat_rotateLeft_split v hn, toNat_rotateLeft_split v' hn] at hsum
  have hhigh : v.toNat / 2 ^ (32 - n) = v'.toNat / 2 ^ (32 - n) := by
    rw [← Nat.mul_add_mod_of_lt (a := v.toNat % 2 ^ (32 - n)) (topBits_lt v hn), hsum,
      Nat.mul_add_mod_of_lt (topBits_lt v' hn)]
  have hlow : v.toNat % 2 ^ (32 - n) = v'.toNat % 2 ^ (32 - n) := by
    rw [hhigh] at hsum
    exact Nat.eq_of_mul_eq_mul_right (Nat.two_pow_pos n) (Nat.add_right_cancel hsum)
  apply BitVec.eq_of_toNat_eq
  rw [← Nat.div_add_mod v.toNat (2 ^ (32 - n)), hhigh, hlow, Nat.div_add_mod]

/-! The steps. -/

/-- Half of a double step of the quarter-round: add, xor, rotate, and the roles of the four words exchanged for the next
half (R101). -/
def addXorRotate (n : Nat) (q : Word × Word × Word × Word) : Word × Word × Word × Word :=
  (q.2.2.1, (q.2.2.2 ^^^ (q.1 + q.2.1)).rotateLeft n, q.1 + q.2.1, q.2.1)

/-- The twelve steps are four times the same three. -/
theorem quarterRound_eq_addXorRotate (q : Word × Word × Word × Word) :
    quarterRound q.1 q.2.1 q.2.2.1 q.2.2.2 =
      addXorRotate 7 (addXorRotate 8 (addXorRotate 12 (addXorRotate 16 q))) := rfl

theorem addXorRotate_injective {n : Nat} (hn : n < 32) : Function.Injective (addXorRotate n) := by
  rintro ⟨a, b, c, d⟩ ⟨a', b', c', d'⟩ h
  simp only [addXorRotate, Prod.mk.injEq] at h
  obtain ⟨rfl, hd, ha, rfl⟩ := h
  obtain rfl := (BitVec.add_left_inj b).1 ha
  obtain rfl := (BitVec.xor_left_inj (a + b)).1 (rotateLeft_injective hn hd)
  rfl

theorem quarterRound_bijective :
    Function.Bijective (fun q : Word × Word × Word × Word => quarterRound q.1 q.2.1 q.2.2.1 q.2.2.2) := by
  refine Finite.injective_iff_bijective.1 ?_
  simp only [quarterRound_eq_addXorRotate]
  exact (addXorRotate_injective (by decide)).comp ((addXorRotate_injective (by decide)).comp
    ((addXorRotate_injective (by decide)).comp (addXorRotate_injective (by decide))))

/-! The obligation. -/

/-- Settles O23: the steps with R13's rotation, the bijection, and the two examples of R101. -/
theorem quarterRoundIsTheTwelveSteps : Obligations.QuarterRoundIsTheTwelveSteps := by
  refine ⟨fun a b c d => ?_, quarterRound_bijective, by decide, by decide⟩
  refine ⟨_, _, _, _, rfl, rfl, rfl, rfl, _, _, _, _, rfl, rfl, rfl, rfl, ?_⟩
  simp only [← rotateLeft_eq_ofNat _ (show 16 < 32 by decide), ← rotateLeft_eq_ofNat _ (show 12 < 32 by decide),
    ← rotateLeft_eq_ofNat _ (show 8 < 32 by decide), ← rotateLeft_eq_ofNat _ (show 7 < 32 by decide)]
  rfl

end Sys2Proof.Proofs.QuarterRound
end

section
/-! Seeds, the block counter, and the keystream as a function of the number of bytes consumed since a CINIT
(40_cipher_init.md R91, R97; 92_eei_decisions.md D2; 41_keystream_block.md R108, R110; 42_xor_engine.md R115, R118,
R120, R122). -/

namespace Sys2Proof.Proofs.Keystream

open Sys2Proof Sys2Proof.Machine
open Sys2Proof.Proofs.CipherInit (cinitState exec_cinit_of_written constantWords_eq controlWords_eq_ofNat)
open Sys2Proof.Proofs.KeystreamBlock (toNat_ksgen_counter getElem_ksgen_x_of_ne)
open Sys2Proof.Proofs.XorEngine (xstep_of_lt)

/-! The seed words and their counter. -/

/-- D2's placement of the seed words. -/
theorem seedWords_salsaDiagonal (key : KeyWords) (len : Word64) :
    seedWords .salsaDiagonal key len =
      (#v[0x61707865, key[0], key[1], key[2], key[3], 0x3320646E,
        0, BitVec.ofNat 32 len.toNat, BitVec.ofNat 32 (len.toNat + 1),
        BitVec.ofNat 32 (0xFFFFFFFF - len.toNat % 2 ^ 32),
        0x79622D32, key[4], key[5], key[6], key[7], 0x6B206574] : Words) := by
  unfold seedWords
  rw [constantWords_eq, controlWords_eq_ofNat]
  rfl

/-- The counter starts with `T0 = 0` in its low half and `T1`, the low word of the length, in its high half (R91). -/
theorem blockCounter_seedWords (pos : SeedLayout) (key : KeyWords) (len : Word64) :
    blockCounter pos (seedWords pos key len) = len.setWidth 32 ++ (0 : Word) := by
  cases pos <;> rfl

/-- The counter of `SEED(n)` as a number (R110). -/
theorem toNat_blockCounter_seedAt (pos : SeedLayout) (key : KeyWords) (len : Word64) (n : Nat) :
    (blockCounter pos (seedAt pos key len n)).toNat = (len.toNat % 2 ^ 32 * 2 ^ 32 + n) % 2 ^ 64 := by
  have hstart : (blockCounter pos (seedWords pos key len)).toNat = len.toNat % 2 ^ 32 * 2 ^ 32 := by
    rw [blockCounter_seedWords, toNat_append_words, BitVec.toNat_setWidth]
    exact Nat.add_zero _
  rw [seedAt, blockCounter_withCounter, BitVec.toNat_add, hstart, BitVec.toNat_ofNat, Nat.add_mod_mod]

/-- The low counter word of `SEED(n)` counts the blocks. -/
theorem toNat_counterLow_seedAt (pos : SeedLayout) (key : KeyWords) (len : Word64) (n : Nat) :
    (seedAt pos key len n)[counterLow pos].toNat = n % 2 ^ 32 := by
  have hcounter := toNat_blockCounter_seedAt pos key len n
  rw [blockCounter, toNat_append_words] at hcounter
  omega

/-- `SEED(n)` is the seed with the halves of the counter written in (R110). -/
theorem seedAt_rows (key : KeyWords) (len : Word64) (n : Nat) :
    seedAt .rows key len n =
      ((seedWords .rows key len).set 12
        (BitVec.ofNat 32 ((len.toNat % 2 ^ 32 * 2 ^ 32 + n) % 2 ^ 64 % 2 ^ 32))).set 13
        (BitVec.ofNat 32 ((len.toNat % 2 ^ 32 * 2 ^ 32 + n) % 2 ^ 64 / 2 ^ 32)) := by
  rw [← toNat_blockCounter_seedAt .rows key len n, seedAt, blockCounter_withCounter]
  generalize blockCounter .rows (seedWords .rows key len) + BitVec.ofNat 64 n = counter
  have hlow : BitVec.ofNat 32 (counter.toNat % 2 ^ 32) = counter.setWidth 32 := by
    rw [← BitVec.toNat_setWidth, BitVec.ofNat_toNat, BitVec.setWidth_eq]
  have hhigh : BitVec.ofNat 32 (counter.toNat / 2 ^ 32) = counter.extractLsb' 32 32 := by
    rw [← toNat_high, BitVec.ofNat_toNat, BitVec.setWidth_eq]
  rw [hlow, hhigh]
  rfl

/-- Every KSGEN takes `X` from the seed of one block to the seed of the next (R108, R110). -/
theorem iterate_ksgen_x (pos : SeedLayout) (key : KeyWords) (len : Word64) (c : CipherState) (n : Nat) :
    ((CipherState.ksgen pos)^[n] (c.seed pos key len)).x = seedAt pos key len n := by
  induction n with
  | zero => exact (seedAt_zero pos key len).symm
  | succ n ih => rw [Function.iterate_succ_apply', CipherState.ksgen_x, ih, seedAt_succ]

/-! The keystream since a CINIT. -/

/-- Byte `i` of the keystream: byte `i mod 64` of block `i div 64` (R118). `StreamAt.xstep_fst` ties it to the byte
step. -/
def keystreamAt (pos : SeedLayout) (key : KeyWords) (len : Word64) (i : Nat) : Byte :=
  (blockBytes (seedAt pos key len (i / 64)))[i % 64]'(Nat.mod_lt i (by decide))

/-- The cipher state `n` bytes after a CINIT with this key and length: `⌈n / 64⌉` blocks were generated, the cursor
stands past the last byte consumed, and `KS` is the last block wherever the cursor points into it (R115, R122). `KS` at
a cursor of 64 is left open: no byte step reads it. -/
structure StreamAt (pos : SeedLayout) (key : KeyWords) (len : Word64) (n : Nat) (c : CipherState) : Prop where
  x_eq : c.x = seedAt pos key len ((n + 63) / 64)
  cur_add : c.cur.val + 64 * ((n + 63) / 64) = n + 64
  ks_eq : n % 64 ≠ 0 → c.ks = blockBytes (seedAt pos key len (n / 64))

section Stream

variable {pos : SeedLayout} {key : KeyWords} {len : Word64} {n : Nat} {c : CipherState}

theorem streamAt_seed (pos : SeedLayout) (key : KeyWords) (len : Word64) (c : CipherState) :
    StreamAt pos key len 0 (c.seed pos key len) where
  x_eq := (seedAt_zero pos key len).symm
  cur_add := rfl
  ks_eq := absurd rfl

/-- What the byte step sees after its first line: block `n div 64`, with the cursor at byte `n mod 64` of it. -/
theorem StreamAt.refill (h : StreamAt pos key len n c) :
    (c.refill pos).x = seedAt pos key len (n / 64 + 1) ∧ (c.refill pos).cur.val = n % 64 ∧
      (c.refill pos).ks = blockBytes (seedAt pos key len (n / 64)) := by
  have hcur := h.cur_add
  rcases cur_lt_or_eq c with hlt | heq
  · have hblocks : (n + 63) / 64 = n / 64 + 1 := by omega
    rw [refill_of_lt hlt]
    exact ⟨hblocks ▸ h.x_eq, by omega, h.ks_eq (by omega)⟩
  · rw [heq, show (64 : Fin 65).val = 64 from rfl] at hcur
    have hblocks : (n + 63) / 64 = n / 64 := by omega
    have hx : c.x = seedAt pos key len (n / 64) := hblocks ▸ h.x_eq
    rw [refill_of_eq heq, CipherState.ksgen_x, CipherState.ksgen_ks, CipherState.ksgen_cur, hx, seedAt_succ]
    exact ⟨rfl, by rw [Fin.val_zero]; omega, rfl⟩

theorem StreamAt.xstep_fst (h : StreamAt pos key len n c) (b : Byte) :
    (c.xstep pos b).1 = b ^^^ keystreamAt pos key len n := by
  obtain ⟨-, hcur, hks⟩ := h.refill
  rw [Machine.xstep_fst, keystreamByte_of_lt (refill_cur_lt pos c), keystreamAt]
  simp only [hcur, hks]

theorem StreamAt.xstep_snd (h : StreamAt pos key len n c) (b : Byte) :
    StreamAt pos key len (n + 1) (c.xstep pos b).2 := by
  obtain ⟨hx, hcur, hks⟩ := h.refill
  have hblocks : (n + 1 + 63) / 64 = n / 64 + 1 := by omega
  refine ⟨?_, ?_, fun hne => ?_⟩
  · rw [xstep_x, hx, hblocks]
  · rw [xstep_cur_val, hcur]
    omega
  · rw [xstep_ks, hks, show (n + 1) / 64 = n / 64 by omega]

theorem StreamAt.xsteps_snd (h : StreamAt pos key len n c) (bs : List Byte) :
    StreamAt pos key len (n + bs.length) (c.xsteps pos bs).2 := by
  induction bs generalizing n c with
  | nil => exact h
  | cons b bs ih =>
    rw [xsteps_cons, List.length_cons, Nat.add_comm bs.length, ← Nat.add_assoc]
    exact ih (h.xstep_snd b)

/-- Byte `i` of a list is xored with the keystream byte of its place since the CINIT (R118). -/
theorem StreamAt.xsteps_fst (h : StreamAt pos key len n c) {bs : List Byte} {i : Nat} (hi : i < bs.length) :
    (c.xsteps pos bs).1.getD i 0 = bs.getD i 0 ^^^ keystreamAt pos key len (n + i) := by
  induction bs generalizing n c i with
  | nil => exact absurd hi (Nat.not_lt_zero i)
  | cons b bs ih =>
    cases i with
    | zero => exact h.xstep_fst b
    | succ i =>
      rw [xsteps_cons, List.getD_cons_succ, List.getD_cons_succ, Nat.add_comm i, ← Nat.add_assoc]
      exact ih (h.xstep_snd b) (Nat.lt_of_succ_lt_succ hi)

/-- The shape the invariant gives the cipher state after a CINIT is that of some place in some keystream. -/
theorem exists_streamAt_iff :
    (1 ≤ c.cur.val ∧ ∃ key len blocks, c.x = seedAt pos key len blocks ∧
      (c.cur = 64 ∨ ∃ m, blocks = m + 1 ∧ c.ks = blockBytes (seedAt pos key len m))) ↔
    ∃ key len n, StreamAt pos key len n c := by
  constructor
  · rintro ⟨hpos, key, len, blocks, hx, hblock⟩
    rcases cur_lt_or_eq c with hlt | heq
    · obtain ⟨m, rfl, hks⟩ := hblock.resolve_left (by rintro heq; rw [heq] at hlt; exact absurd hlt (by decide))
      refine ⟨key, len, 64 * m + c.cur.val, ?_, by omega, fun _ => ?_⟩
      · rwa [show (64 * m + c.cur.val + 63) / 64 = m + 1 by omega]
      · rwa [show (64 * m + c.cur.val) / 64 = m by omega]
    · have hval : c.cur.val = 64 := congrArg Fin.val heq
      refine ⟨key, len, 64 * blocks, ?_, by omega, fun hne => absurd (Nat.mul_mod_right 64 blocks) hne⟩
      rwa [show (64 * blocks + 63) / 64 = blocks by omega]
  · rintro ⟨key, len, n, h⟩
    have hcur := h.cur_add
    refine ⟨by omega, key, len, _, h.x_eq, ?_⟩
    rcases cur_lt_or_eq c with hlt | heq
    · exact .inr ⟨n / 64, by omega, h.ks_eq (by omega)⟩
    · exact .inl heq

end Stream

/-! Facts about the byte step that hold from every cipher state. -/

/-- Bytes that fit in what is left of the block are xored with it, and only the cursor moves (R120). -/
theorem xsteps_of_fits (pos : SeedLayout) (bs : List Byte) (c : CipherState) (h : c.cur.val + bs.length ≤ 64) :
    (c.xsteps pos bs).1 = List.zipWith (fun b k => b ^^^ k) bs (c.ks.toList.drop c.cur.val) ∧
      (c.xsteps pos bs).2.x = c.x ∧ (c.xsteps pos bs).2.ks = c.ks ∧
      (c.xsteps pos bs).2.cur.val = c.cur.val + bs.length := by
  induction bs generalizing c with
  | nil => exact ⟨rfl, rfl, rfl, rfl⟩
  | cons b bs ih =>
    rw [List.length_cons] at h ⊢
    have hlt : c.cur.val < 64 := by omega
    have hcur : (c.cur + 1).val = c.cur.val + 1 := val_cur_add_one hlt
    have hdrop : c.ks.toList.drop c.cur.val = c.ks[c.cur.val] :: c.ks.toList.drop (c.cur.val + 1) := by
      rw [List.drop_eq_getElem_cons (by simpa using hlt), Vector.getElem_toList]
    obtain ⟨hout, hx, hks, hmove⟩ := ih { c with cur := c.cur + 1 } (by rw [hcur]; omega)
    rw [xsteps_cons, xstep_of_lt hlt, hdrop, List.zipWith_cons_cons, ← hcur]
    exact ⟨congrArg _ hout, hx, hks, by rw [hmove, hcur]; omega⟩

/-- The byte step changes no word of `X` but the two counter words. -/
theorem getElem_xsteps_x_of_ne (pos : SeedLayout) (bs : List Byte) (c : CipherState) (i : Fin 16)
    (hl : i ≠ counterLow pos) (hh : i ≠ counterHigh pos) : (c.xsteps pos bs).2.x[i] = c.x[i] := by
  induction bs generalizing c with
  | nil => rfl
  | cons b bs ih =>
    have hstep : (c.xstep pos b).2.x[i] = c.x[i] := by
      rw [xstep_x]
      rcases cur_lt_or_eq c with hlt | heq
      · rw [refill_of_lt hlt]
      · rw [refill_of_eq heq]
        exact getElem_ksgen_x_of_ne pos c i hl hh
    rw [xsteps_cons]
    exact (ih _).trans hstep

/-- The cipher state CAPPLY's loop leaves depends on the number of bytes only, whatever `MEM` holds. -/
theorem applyBytes_fst_eq_xsteps (pos : SeedLayout) (n addr : Nat) (c : CipherState) (m : Memory) :
    (applyBytes pos n addr c m).1 = (c.xsteps pos (List.replicate n 0)).2 := by
  induction n generalizing addr c m with
  | zero => rfl
  | succ n ih => rw [applyBytes, ih, List.replicate_succ, xsteps_cons, xstep_snd_eq pos (m.readByte addr) 0]

/-! The obligations. -/

/-- Settles O20: CINIT seeds, and under the layout set aside the seed is D2's placement. -/
theorem cinitSeedsTheSetAsideLayout : Obligations.CinitSeedsTheSetAsideLayout := by
  intro s hf hw hpos
  rw [exec_cinit_of_written hf hw, cinitState, CipherState.seed, hpos, seedWords_salsaDiagonal]
  rfl

/-- Settles O22: CINIT leaves `cinitState`, whose `X` names nothing but the layout, KEY and LEN. -/
theorem cinitDependsOnKeyAndLenOnly : Obligations.CinitDependsOnKeyAndLenOnly := by
  intro s s' t t' hf hf' hw hw' hpos hkey hlen hx hx'
  obtain rfl := Host.Outcome.next.inj ((exec_cinit_of_written hf hw).symm.trans hx)
  obtain rfl := Host.Outcome.next.inj ((exec_cinit_of_written hf' hw').symm.trans hx')
  refine ⟨?_, rfl, rfl⟩
  show seedWords s.cfg.pos s.regs.key s.regs.len = seedWords s'.cfg.pos s'.regs.key s'.regs.len
  rw [hpos, hkey, hlen]

/-- Settles O26: `n` blocks take `X` to `SEED(n)`, and the next block is generated from it. -/
theorem nthBlockIsTheBlockOfItsSeed : Obligations.NthBlockIsTheBlockOfItsSeed := by
  intro key len c n
  rw [Function.iterate_succ_apply', CipherState.ksgen_ks, iterate_ksgen_x, seedAt_rows]

/-- Settles O31: the byte step from the start of the keystream. -/
theorem keystreamClosedForm : Obligations.KeystreamClosedForm := by
  intro pos key len c bs i hi
  rw [(streamAt_seed pos key len c).xsteps_fst hi, Nat.zero_add, keystreamAt]

/-- Settles O32: after `n` bytes the cipher state is at place `n` of the keystream. -/
theorem blockBoundary : Obligations.BlockBoundary := by
  intro key len c bs
  have hat := (streamAt_seed .rows key len c).xsteps_snd bs
  rw [Nat.zero_add] at hat
  have hcur := hat.cur_add
  have hcount : ((c.seed .rows key len).xsteps .rows bs).2.x[12].toNat = (bs.length + 63) / 64 % 2 ^ 32 := by
    rw [hat.x_eq]
    exact toNat_counterLow_seedAt .rows key len _
  refine ⟨?_, fun hpos => ⟨hcount, by omega⟩, fun hlen => ?_, fun hlen => ?_⟩
  · rintro rfl
    exact ⟨hcount, rfl⟩
  all_goals
    rw [hlen] at hcount hcur
    exact ⟨hcount, by omega⟩

/-- Settles O35: the bytes fit, whether or not the cursor stands at the end. -/
theorem lanesWithinABlock : Obligations.LanesWithinABlock := fun pos bs c h _ => xsteps_of_fits pos bs c h

/-- Settles O60: the block does not depend on the layout, and the counter words are 7 and 6. -/
theorem ksgenUnderTheSetAsideLayout : Obligations.KsgenUnderTheSetAsideLayout :=
  fun c => ⟨rfl, toNat_ksgen_counter .salsaDiagonal c, getElem_ksgen_x_of_ne .salsaDiagonal c, rfl⟩

end Sys2Proof.Proofs.Keystream
end

section
/-! The invariant of the machine: it holds at reset, and every step keeps it (10_state.md sections 1 and 3;
44_archive_reader.md R135 to R139; 60_exceptions.md R161). -/

namespace Sys2Proof.Proofs.Invariant

open Sys2Proof Sys2Proof.Machine
open Sys2Proof.Proofs.RegisterMap (resetWith_read)
open Sys2Proof.Proofs.CipherInit (cinitState)
open Sys2Proof.Proofs.Keystream
open Sys2Proof.Proofs.Exceptions (allWritten_pair)
open Sys2Proof.Proofs.Stepping

/-! The cipher half, through places in a keystream. -/

theorem cipherConsistent_of_streamAt {s : State} {key : KeyWords} {len : Word64} {n : Nat}
    (hseed : s.status.seeded = true) (hw : s.allWritten cinitRegs)
    (h : StreamAt s.cfg.pos key len n s.cipher) : s.CipherConsistent :=
  ⟨fun hno => absurd (hseed.symm.trans hno) nofun, fun _ => ⟨hw, exists_streamAt_iff.2 ⟨key, len, n, h⟩⟩⟩

theorem streamAt_of_cipherConsistent {s : State} (h : s.CipherConsistent) (hseed : s.status.seeded = true) :
    s.allWritten cinitRegs ∧ ∃ key len n, StreamAt s.cfg.pos key len n s.cipher := by
  obtain ⟨hw, hshape⟩ := h.2 hseed
  exact ⟨hw, exists_streamAt_iff.1 hshape⟩

/-! The walk. -/

/-- A record yielded is within the payload, so none of the sums ANEXT stores wraps (R139, log 15). -/
theorem recordFields_sums {s : State}
    (hname : s.rptr.toNat + 16 + (s.recordFields s.rptr.toNat).nlen.toNat ≤ s.regs.payLen.toNat) :
    (s.recordFields s.rptr.toNat).namep.toNat = s.rptr.toNat + 16 ∧
      (s.recordFields s.rptr.toNat).datap.toNat = s.ah.doff.toNat + (s.recordFields s.rptr.toNat).off.toNat ∧
      (BitVec.ofNat 64 (s.rptr.toNat + 16 + (s.recordFields s.rptr.toNat).nlen.toNat)).toNat =
        s.rptr.toNat + 16 + (s.recordFields s.rptr.toNat).nlen.toNat := by
  have hlen := s.regs.payLen.isLt
  have hdoff := s.ah.doff.isLt
  have hoff := (s.payField (s.rptr.toNat + 8)).isLt
  refine ⟨?_, ?_, ?_⟩
  · exact Nat.mod_eq_of_lt (by omega)
  · exact Nat.mod_eq_of_lt (by omega)
  · exact Nat.mod_eq_of_lt (by omega)

/-- The state an ANEXT that yields a record leaves (R138); `anext_cases` ties it to the command. -/
def recordState (s : State) : State :=
  { s with
    fr := s.recordFields s.rptr.toNat
    rptr := BitVec.ofNat 64 (s.rptr.toNat + 16 + (s.recordFields s.rptr.toNat).nlen.toNat)
    ridx := s.ridx + 1
    status := s.status.afterRecord }

theorem walkFinished_iff {s : State} :
    s.walkFinished = true ↔ s.status.notarc = true ∨ s.ridx = s.ah.count := by
  rw [State.walkFinished, Bool.or_eq_true, beq_iff_eq]

theorem walkFinished_eq_false_iff {s : State} :
    s.walkFinished = false ↔ s.status.notarc = false ∧ s.ridx ≠ s.ah.count := by
  rw [State.walkFinished, Bool.or_eq_false_iff, beq_eq_false_iff_ne]

theorem toNat_ridx_succ {s : State} (hle : s.ridx.toNat ≤ s.ah.count.toNat) (hne : s.ridx ≠ s.ah.count) :
    (s.ridx + 1).toNat = s.ridx.toNat + 1 ∧ s.ridx.toNat + 1 ≤ s.ah.count.toNat := by
  have hlt : s.ridx.toNat < s.ah.count.toNat := Nat.lt_of_le_of_ne hle (mt BitVec.eq_of_toNat_eq hne)
  have hcount := s.ah.count.isLt
  exact ⟨Nat.mod_eq_of_lt (by show s.ridx.toNat + 1 < 2 ^ 32; omega), hlt⟩

/-- After an AHDR the walk stands before the first record. -/
theorem walkConsistent_afterAhdr {s : State} (hw : s.allWritten [.magic, .payBase, .payLen]) (isMatch : Bool) :
    ({ s with
      ah := s.headerFields
      rptr := 16
      ridx := 0
      status := s.status.afterAhdr isMatch } : State).WalkConsistent := by
  have hmagic := hw .magic (by decide)
  have hbase := hw .payBase (by decide)
  have hlen := hw .payLen (by decide)
  refine ⟨Bool.and_not_self isMatch, Nat.zero_le _, fun _ => ⟨hmagic, hbase, hlen, Nat.le_refl 16⟩,
    fun hno => absurd ((Bool.or_not_self isMatch).symm.trans hno) nofun, fun _ => ⟨rfl, rfl, rfl⟩, nofun, nofun⟩

theorem walkConsistent_afterEnd {s : State} (h : s.WalkConsistent)
    (hopen : (s.status.arcok || s.status.notarc) = true) (hend : s.walkFinished = true) :
    ({ s with status := s.status.afterEnd } : State).WalkConsistent := by
  obtain ⟨hexcl, hridx, hwalk, -, hnot, -, -⟩ := h
  exact ⟨hexcl, hridx, hwalk, fun hno => absurd (hopen.symm.trans hno) nofun,
    fun h => ⟨(hnot h).1, (hnot h).2.1, rfl⟩, nofun, fun _ => walkFinished_iff.1 hend⟩

theorem walkConsistent_afterRecord {s : State} (h : s.WalkConsistent)
    (hopen : (s.status.arcok || s.status.notarc) = true) (hmore : s.walkFinished = false)
    (hname : s.rptr.toNat + 16 + (s.recordFields s.rptr.toNat).nlen.toNat ≤ s.regs.payLen.toNat) :
    (recordState s).WalkConsistent := by
  obtain ⟨hexcl, hridx, hwalk, -, -, -, hended⟩ := h
  obtain ⟨hnot, hne⟩ := walkFinished_eq_false_iff.1 hmore
  obtain ⟨hmagic, hbase, hlen, hrptr⟩ := hwalk hopen
  obtain ⟨hnamep, hdatap, hnext⟩ := recordFields_sums hname
  obtain ⟨hsucc, hle⟩ := toNat_ridx_succ hridx hne
  have hnotEnded : s.status.ended = false := by
    by_contra hyes
    rcases hended (Bool.eq_true_of_not_eq_false hyes) with h | h
    · exact absurd (hnot.symm.trans h) nofun
    · exact hne h
  refine ⟨hexcl, ?_, fun _ => ⟨hmagic, hbase, hlen, ?_⟩, fun hno => absurd (hopen.symm.trans hno) nofun,
    fun h => absurd (hnot.symm.trans h) nofun, fun _ => ⟨hnotEnded, ?_, ?_, hdatap⟩,
    fun h => absurd (hnotEnded.symm.trans h) nofun⟩
  all_goals dsimp only [recordState]
  · rw [hsucc]
    exact hle
  · rw [hsucc, hnext]
    omega
  · rw [hsucc]
    exact Nat.le_add_left 1 _
  · rw [hnext, hnamep]

/-! Reset. -/

theorem resetWith_inv {cfg : Config} (h : cfg.memSize ≤ 2 ^ 64) : (State.resetWith cfg).Inv where
  cfg_wf := decide_eq_true h
  mem_wf := rfl
  faultLatch := ⟨fun _ => ⟨rfl, rfl⟩, nofun⟩
  unwritten := fun r _ => resetWith_read cfg r
  cipher := ⟨fun _ => ⟨rfl, rfl, rfl, rfl⟩, nofun⟩
  region := ⟨fun _ => ⟨rfl, rfl⟩, nofun, nofun⟩
  walk := ⟨rfl, Nat.le_refl 0, nofun, fun _ => ⟨rfl, rfl, rfl, rfl⟩, nofun, nofun, nofun⟩

/-! Each thing a step can do. -/

section Effects

variable {s t : State}

/-- The invariant does not speak of the two lists of host traffic. -/
theorem inv_with_traffic (h : s.Inv) (waiting : List HostAccess) (answered : List HostReply) :
    ({ s with pending := waiting, replies := answered } : State).Inv :=
  ⟨h.cfg_wf, h.mem_wf, h.faultLatch, h.unwritten, h.cipher, h.region, h.walk⟩

theorem inv_raise (h : s.Inv) (f : Raised) : (s.raise f).Inv :=
  ⟨h.cfg_wf, h.mem_wf, ⟨nofun, fun _ => causeCode_range f.cause⟩, h.unwritten, h.cipher, h.region, h.walk⟩

theorem inv_resetBlock (h : s.Inv) : s.resetBlock.Inv := by
  have hreset := resetWith_inv (of_decide_eq_true h.cfg_wf)
  exact ⟨hreset.cfg_wf, h.mem_wf, hreset.faultLatch, hreset.unwritten, hreset.cipher, hreset.region, hreset.walk⟩

theorem inv_store (h : s.Inv) {addr : Nat} {bs : List Byte} (hin : addr + bs.length ≤ s.cfg.memSize) :
    ({ s with mem := s.mem.writeBytes addr bs } : State).Inv :=
  ⟨h.cfg_wf, wf_writeBytes hin h.mem_wf, h.faultLatch, h.unwritten, h.cipher, h.region, h.walk⟩

theorem writeRW_wv_mono {r r' : RWReg} {v : Word64} (h : s.wv r' = true) : (s.writeRW r v).wv r' = true := by
  rw [writeRW_wv, h, Bool.true_or]

theorem inv_writeRW (h : s.Inv) (r : RWReg) (v : Word64) : (s.writeRW r v).Inv where
  cfg_wf := h.cfg_wf
  mem_wf := h.mem_wf
  faultLatch := h.faultLatch
  unwritten := by
    intro r' hr'
    rw [writeRW_wv, Bool.or_eq_false_iff, decide_eq_false_iff_not] at hr'
    rw [State.writeRW_regs, read_write, if_neg hr'.2]
    exact h.unwritten r' hr'.1
  cipher := ⟨h.cipher.1, fun hseed =>
    ⟨fun r' hr' => writeRW_wv_mono ((h.cipher.2 hseed).1 r' hr'), (h.cipher.2 hseed).2⟩⟩
  region := by
    obtain ⟨hnone, hread, hchecked⟩ := h.region
    exact ⟨hnone, fun hc => ⟨writeRW_wv_mono (hread hc).1, writeRW_wv_mono (hread hc).2⟩,
      fun hd => writeRW_wv_mono (hchecked hd)⟩
  walk := by
    obtain ⟨hexcl, hridx, hwalk, hnone, hnot, hrecv, hended⟩ := h.walk
    refine ⟨hexcl, hridx, fun hopen => ?_, hnone, hnot, hrecv, hended⟩
    obtain ⟨hmagic, hbase, hlen, hrptr⟩ := hwalk hopen
    exact ⟨writeRW_wv_mono hmagic, writeRW_wv_mono hbase, writeRW_wv_mono hlen, hrptr⟩

/-- A command that moves the cipher state along its keystream, and may write DOUT, keeps the cipher half. -/
theorem cipherConsistent_xsteps (h : s.Inv) (hseed : s.status.seeded = true) (bs : List Byte) (out : Byte)
    (m : Memory) :
    ({ s with cipher := (s.cipher.xsteps s.cfg.pos bs).2, dout := out, mem := m } : State).CipherConsistent := by
  obtain ⟨hw, key, len, n, hat⟩ := streamAt_of_cipherConsistent h.cipher hseed
  exact cipherConsistent_of_streamAt hseed hw (hat.xsteps_snd bs)

theorem inv_of_commandBody_ok {i : Instr} (h : s.Inv) (hb : commandBody i s = .ok t) : t.Inv := by
  cases i with
  | cinit =>
    obtain ⟨hw, rfl⟩ := cinitBody_eq_ok.1 hb
    have hcipher := cipherConsistent_of_streamAt (s := cinitState s) rfl hw (streamAt_seed _ _ _ s.cipher)
    exact ⟨h.cfg_wf, h.mem_wf, h.faultLatch, h.unwritten, hcipher, h.region, h.walk⟩
  | cxorb =>
    obtain ⟨hseed, -, rfl⟩ := cxorbBody_eq_ok.1 hb
    have hcipher := cipherConsistent_xsteps h hseed [s.regs.din] (s.cipher.xstep s.cfg.pos s.regs.din).1 s.mem
    exact ⟨h.cfg_wf, h.mem_wf, h.faultLatch, h.unwritten, hcipher, h.region, h.walk⟩
  | capply =>
    obtain ⟨hseed, -, -, hin, rfl⟩ := capplyBody_eq_ok.1 hb
    rw [applyBytes_fst_eq_xsteps]
    have hcipher := cipherConsistent_xsteps h hseed (List.replicate s.regs.bufCnt.toNat 0) s.dout
      (applyBytes s.cfg.pos s.regs.bufCnt.toNat s.regs.bufBase.toNat s.cipher s.mem).2
    exact ⟨h.cfg_wf, wf_applyBytes s.cfg.pos hin h.mem_wf, h.faultLatch, h.unwritten, hcipher, h.region, h.walk⟩
  | rdcrh =>
    obtain ⟨hbase, hlen, -, -, rfl⟩ := rdcrhBody_eq_ok.1 hb
    exact ⟨h.cfg_wf, h.mem_wf, h.faultLatch, h.unwritten, h.cipher, ⟨nofun, fun _ => ⟨hbase, hlen⟩, nofun⟩, h.walk⟩
  | dchk =>
    obtain ⟨hcrhv, hret, -, rfl⟩ := dchkBody_eq_ok.1 hb
    obtain ⟨-, hread, -⟩ := h.region
    exact ⟨h.cfg_wf, h.mem_wf, h.faultLatch, h.unwritten, h.cipher,
      ⟨fun hno => absurd (hcrhv.symm.trans hno) nofun, hread, fun _ => hret⟩, h.walk⟩
  | ahdr =>
    obtain ⟨hmagic, hbase, hlen, -, -, rfl⟩ := ahdrBody_eq_ok.1 hb
    have hw : s.allWritten [.magic, .payBase, .payLen] := List.forall_mem_cons.2 ⟨hmagic, allWritten_pair hbase hlen⟩
    exact ⟨h.cfg_wf, h.mem_wf, h.faultLatch, h.unwritten, h.cipher, h.region, walkConsistent_afterAhdr hw _⟩
  | anext =>
    obtain ⟨hopen, ⟨hend, rfl⟩ | ⟨hmore, -, -, -, hname, -, rfl⟩⟩ := anextBody_eq_ok.1 hb
    · exact ⟨h.cfg_wf, h.mem_wf, h.faultLatch, h.unwritten, h.cipher, h.region,
        walkConsistent_afterEnd h.walk hopen hend⟩
    · exact ⟨h.cfg_wf, h.mem_wf, h.faultLatch, h.unwritten, h.cipher, h.region,
        walkConsistent_afterRecord h.walk hopen hmore hname⟩
  | srst =>
    obtain rfl := Except.ok.inj hb
    exact inv_resetBlock h

end Effects

/-! The obligations. -/

/-- Settles O59. -/
theorem resetHasTheInvariant : Obligations.ResetHasTheInvariant :=
  ⟨resetWith_inv (by decide), fun _ => resetWith_inv⟩

/-- Settles O58: each of the things a step can do keeps the invariant. -/
theorem stepKeepsTheInvariant : Obligations.StepKeepsTheInvariant := by
  intro s t h hs
  cases StepEffect.of_step hs with
  | quiet waiting answered => exact inv_with_traffic h waiting answered
  | raised rest f => exact inv_raise (inv_with_traffic h rest s.replies) f
  | ran i rest t hi hf hp hb => exact inv_of_commandBody_ok (inv_with_traffic h rest s.replies) hb
  | wrote rest r v => exact inv_writeRW (inv_with_traffic h rest s.replies) r v
  | stored addr bs rest hp hin => exact inv_store (inv_with_traffic h rest s.replies) hin
  | reset rest => exact inv_resetBlock (inv_with_traffic h rest s.replies)

end Sys2Proof.Proofs.Invariant
end

section
/-! What the steps leave alone: the first fault, `X`, `MEM`, the `RW` registers, the configuration (60_exceptions.md
R172; 10_state.md R20, R42, R44; 20_memory.md R51, R53, R56). -/

namespace Sys2Proof.Proofs.Frames

open Sys2Proof Sys2Proof.Machine
open Sys2Proof.Proofs.Exceptions (exec_srst)
open Sys2Proof.Proofs.Keystream (getElem_xsteps_x_of_ne applyBytes_fst_eq_xsteps)
open Sys2Proof.Proofs.Stepping
open Sys2Proof.Proofs.Invariant (writeRW_wv_mono)

section Commands

variable {i : Instr} {s t : State}

/-- No command but SRST touches the configuration, an `RW` register or a written-valid bit (R44, R49). -/
theorem commandBody_ok_frame (hi : i ≠ .srst) (h : commandBody i s = .ok t) :
    t.cfg = s.cfg ∧ t.regs = s.regs ∧ t.wvalid = s.wvalid := by
  cases i with
  | cinit => obtain ⟨-, rfl⟩ := cinitBody_eq_ok.1 h; exact ⟨rfl, rfl, rfl⟩
  | cxorb => obtain ⟨-, -, rfl⟩ := cxorbBody_eq_ok.1 h; exact ⟨rfl, rfl, rfl⟩
  | capply => obtain ⟨-, -, -, -, rfl⟩ := capplyBody_eq_ok.1 h; exact ⟨rfl, rfl, rfl⟩
  | rdcrh => obtain ⟨-, -, -, -, rfl⟩ := rdcrhBody_eq_ok.1 h; exact ⟨rfl, rfl, rfl⟩
  | dchk => obtain ⟨-, -, -, rfl⟩ := dchkBody_eq_ok.1 h; exact ⟨rfl, rfl, rfl⟩
  | ahdr => obtain ⟨-, -, -, -, -, rfl⟩ := ahdrBody_eq_ok.1 h; exact ⟨rfl, rfl, rfl⟩
  | anext => obtain ⟨-, ⟨-, rfl⟩ | ⟨-, -, -, -, -, -, rfl⟩⟩ := anextBody_eq_ok.1 h <;> exact ⟨rfl, rfl, rfl⟩
  | srst => exact absurd rfl hi

/-- Only CAPPLY writes `MEM` (R53). -/
theorem commandBody_ok_mem (hi : i ≠ .capply) (h : commandBody i s = .ok t) : t.mem = s.mem := by
  cases i with
  | cinit => obtain ⟨-, rfl⟩ := cinitBody_eq_ok.1 h; rfl
  | cxorb => obtain ⟨-, -, rfl⟩ := cxorbBody_eq_ok.1 h; rfl
  | capply => exact absurd rfl hi
  | rdcrh => obtain ⟨-, -, -, -, rfl⟩ := rdcrhBody_eq_ok.1 h; rfl
  | dchk => obtain ⟨-, -, -, rfl⟩ := dchkBody_eq_ok.1 h; rfl
  | ahdr => obtain ⟨-, -, -, -, -, rfl⟩ := ahdrBody_eq_ok.1 h; rfl
  | anext => obtain ⟨-, ⟨-, rfl⟩ | ⟨-, -, -, -, -, -, rfl⟩⟩ := anextBody_eq_ok.1 h <;> rfl
  | srst => obtain rfl := Except.ok.inj h; rfl

/-- CINIT writes `X` as a whole, CXORB and CAPPLY its counter words, the others nothing of it (R20). -/
theorem commandBody_ok_x (hi : i ≠ .srst) (h : commandBody i s = .ok t) :
    i = .cinit ∨ t.cipher.x = s.cipher.x ∨
      ((i = .cxorb ∨ i = .capply) ∧
        ∀ j : Fin 16, j ≠ counterLow s.cfg.pos → j ≠ counterHigh s.cfg.pos → t.cipher.x[j] = s.cipher.x[j]) := by
  cases i with
  | cinit => exact .inl rfl
  | cxorb =>
    obtain ⟨-, -, rfl⟩ := cxorbBody_eq_ok.1 h
    exact .inr (.inr ⟨.inl rfl, getElem_xsteps_x_of_ne s.cfg.pos [s.regs.din] s.cipher⟩)
  | capply =>
    obtain ⟨-, -, -, -, rfl⟩ := capplyBody_eq_ok.1 h
    rw [applyBytes_fst_eq_xsteps]
    exact .inr (.inr ⟨.inr rfl, getElem_xsteps_x_of_ne s.cfg.pos _ s.cipher⟩)
  | rdcrh => obtain ⟨-, -, -, -, rfl⟩ := rdcrhBody_eq_ok.1 h; exact .inr (.inl rfl)
  | dchk => obtain ⟨-, -, -, rfl⟩ := dchkBody_eq_ok.1 h; exact .inr (.inl rfl)
  | ahdr => obtain ⟨-, -, -, -, -, rfl⟩ := ahdrBody_eq_ok.1 h; exact .inr (.inl rfl)
  | anext => obtain ⟨-, ⟨-, rfl⟩ | ⟨-, -, -, -, -, -, rfl⟩⟩ := anextBody_eq_ok.1 h <;> exact .inr (.inl rfl)
  | srst => exact absurd rfl hi

/-- What a command's body and a latched fault both keep, the command keeps. -/
theorem exec_keeps {α : Type} {field : State → α} (hi : i ≠ .srst) (hraise : ∀ f, field (s.raise f) = field s)
    (hok : ∀ u, commandBody i s = .ok u → field u = field s) (hx : exec i s = .next t) : field t = field s := by
  rcases exec_cases hi s with ⟨-, he⟩ | ⟨-, u, hb, he⟩ | ⟨-, f, -, he⟩ <;>
    obtain rfl := Host.Outcome.next.inj (hx.symm.trans he)
  · rfl
  · exact hok t hb
  · exact hraise f

end Commands

/-! The obligations. -/

/-- Settles O52: a step from a faulted state is none of those that need FAULTED 0, and the others but reset touch none
of these fields. -/
theorem firstFaultIsKept : Obligations.FirstFaultIsKept := by
  intro s t hf hs
  cases StepEffect.of_step hs with
  | quiet | wrote | stored => exact .inl ⟨rfl, rfl, rfl, rfl, rfl, rfl, rfl⟩
  | raised _ _ hf' => exact absurd (hf.symm.trans hf') nofun
  | ran _ _ _ _ hf' => exact absurd (hf.symm.trans hf') nofun
  | reset rest hp => exact .inr (hp.imp (⟨rest, ·⟩) (⟨rest, ·⟩))

/-- Settles O54: of the steps only a command and a reset reach `X`. -/
theorem onlyCinitAndKsgenWriteX : Obligations.OnlyCinitAndKsgenWriteX := by
  intro s t hpos hs
  cases StepEffect.of_step hs with
  | quiet | raised | wrote | stored => exact .inl rfl
  | ran i rest t hi _ hp hb =>
    rcases commandBody_ok_x hi hb with rfl | hx | ⟨hcmd, hx⟩
    · exact .inr (.inl ⟨rest, hp⟩)
    · exact .inl hx
    · simp only [hpos] at hx
      refine .inr (.inr (.inr (.inr ⟨?_, hx⟩)))
      rcases hcmd with rfl | rfl
      · exact .inl ⟨rest, hp⟩
      · exact .inr ⟨rest, hp⟩
  | reset rest hp =>
    rcases hp with hp | hp
    · exact .inr (.inr (.inl ⟨rest, hp⟩))
    · exact .inr (.inr (.inr (.inl ⟨rest, hp⟩)))

/-- Settles O55: SRST keeps `MEM` too, so of the steps only CAPPLY and the host's store are left. -/
theorem onlyCapplyAndTheHostWriteMem : Obligations.OnlyCapplyAndTheHostWriteMem := by
  refine ⟨fun i s t hi hx => ?_, fun s t hs => ?_⟩
  · by_cases hreset : i = .srst
    · subst hreset
      obtain rfl := Host.Outcome.next.inj ((exec_srst s).symm.trans hx)
      rfl
    · exact exec_keeps hreset (fun _ => rfl) (fun _ => commandBody_ok_mem hi) hx
  · cases StepEffect.of_step hs with
    | quiet | raised | wrote | reset => exact .inl rfl
    | ran i rest t _ _ hp hb =>
      by_cases hi : i = .capply
      · subst hi
        exact .inr (.inl ⟨rest, hp⟩)
      · have hmem := commandBody_ok_mem hi hb
        exact .inl hmem
    | stored addr bs rest hp => exact .inr (.inr ⟨addr, bs, rest, hp⟩)

/-- Settles O56: the commands' frame, and of the host's writes that a bit set stays set. -/
theorem onlyTheHostWritesRwRegisters : Obligations.OnlyTheHostWritesRwRegisters := by
  refine ⟨fun i s t hi hx => ⟨?_, ?_⟩, fun s t r hs hr => ?_⟩
  · exact exec_keeps hi (fun _ => rfl) (fun _ hb => (commandBody_ok_frame hi hb).2.1) hx
  · exact exec_keeps hi (fun _ => rfl) (fun _ hb => (commandBody_ok_frame hi hb).2.2) hx
  · cases StepEffect.of_step hs with
    | quiet | raised | stored => exact .inl hr
    | ran i rest t hi _ _ hb =>
      obtain ⟨-, -, hwvalid⟩ := commandBody_ok_frame hi hb
      exact .inl ((congrArg (BitVec.getLsbD · (wvIndex r)) hwvalid).trans hr)
    | wrote rest r' v => exact .inl (writeRW_wv_mono hr)
    | reset rest hp => exact .inr (hp.imp (⟨rest, ·⟩) (⟨rest, ·⟩))

/-- Settles O57: even a reset keeps the configuration. -/
theorem configurationIsFixed : Obligations.ConfigurationIsFixed := by
  intro s t hs
  cases StepEffect.of_step hs with
  | quiet | raised | wrote | stored | reset => rfl
  | ran i rest t hi _ _ hb =>
    obtain ⟨hcfg, -, -⟩ := commandBody_ok_frame hi hb
    exact hcfg

end Sys2Proof.Proofs.Frames
end

section
/-! CAPPLY over the buffer window, in one command, in pieces, byte by byte through CXORB, and twice (42_xor_engine.md
R117, R118, R119, R121; 20_memory.md R54). -/

namespace Sys2Proof.Proofs.Window

open Sys2Proof Sys2Proof.Machine
open Sys2Proof.Proofs.CipherInit (cinitState exec_cinit_of_written)
open Sys2Proof.Proofs.XorEngine (exec_of_body_ok cxorbTransformsDin)
open Sys2Proof.Proofs.Keystream

/-! CAPPLY past its checks. -/

/-- What CAPPLY checks, but for FAULTED (R117). `exec_capply_of_checks` and `exec_capply_of_not_checks` tie it to the
command. -/
def CapplyChecks (s : State) : Prop :=
  s.status.seeded = true ∧ s.wv .bufBase = true ∧ s.wv .bufCnt = true ∧
    s.regs.bufBase.toNat + s.regs.bufCnt.toNat ≤ s.cfg.memSize

/-- The state CAPPLY leaves where none of its checks fails (R117). -/
def capplyState (s : State) : State :=
  { s with
    cipher := (applyBytes s.cfg.pos s.regs.bufCnt.toNat s.regs.bufBase.toNat s.cipher s.mem).1
    mem := (applyBytes s.cfg.pos s.regs.bufCnt.toNat s.regs.bufBase.toNat s.cipher s.mem).2 }

theorem exec_capply_of_checks {s : State} (hf : s.status.faulted = false) (h : CapplyChecks s) :
    exec .capply s = .next (capplyState s) := by
  obtain ⟨hseed, hbase, hcnt, hin⟩ := h
  exact exec_of_body_ok (i := .capply) nofun hf (capplyBody_eq_ok.2 ⟨hseed, hbase, hcnt, hin, rfl⟩)

theorem exec_capply_of_not_checks {s : State} (hf : s.status.faulted = false) (h : ¬CapplyChecks s) :
    ∃ f, exec .capply s = .next (s.raise f) := by
  rcases exec_cases (i := .capply) nofun s with ⟨hf', -⟩ | ⟨-, t, hb, -⟩ | ⟨-, f, -, he⟩
  · exact absurd (hf.symm.trans hf') nofun
  · obtain ⟨hseed, hbase, hcnt, hin, -⟩ := capplyBody_eq_ok.1 hb
    exact absurd ⟨hseed, hbase, hcnt, hin⟩ h
  · exact ⟨f, he⟩

/-! In pieces. -/

/-- The next piece starts where this one ends. Where that is past the largest address, the base wraps and nothing is
left to transform. -/
theorem applyBytes_next_base (pos : SeedLayout) (base n : Word64) (rest : Nat) (c : CipherState) (m : Memory)
    (h : base.toNat + n.toNat + rest ≤ 2 ^ 64) :
    applyBytes pos rest (base + n).toNat c m = applyBytes pos rest (base.toNat + n.toNat) c m := by
  rcases Nat.lt_or_ge (base.toNat + n.toNat) (2 ^ 64) with hlt | hge
  · rw [BitVec.toNat_add, Nat.mod_eq_of_lt hlt]
  · obtain rfl : rest = 0 := by omega
    rfl

/-- CAPPLY over consecutive pieces runs the loop over all of them (R119). -/
theorem capplyPieces_eq_applyBytes (pieces : List Word64) (s : State) (hf : s.status.faulted = false)
    (hseed : s.status.seeded = true) (hbase : s.wv .bufBase = true) (hcnt : s.wv .bufCnt = true)
    (hin : s.regs.bufBase.toNat + (pieces.map BitVec.toNat).sum ≤ s.cfg.memSize) (hsize : s.cfg.memSize ≤ 2 ^ 64) :
    ∃ t, capplyPieces pieces s = .next t ∧
      (t.cipher, t.mem) =
        applyBytes s.cfg.pos (pieces.map BitVec.toNat).sum s.regs.bufBase.toNat s.cipher s.mem := by
  induction pieces generalizing s with
  | nil => exact ⟨s, rfl, rfl⟩
  | cons n ns ih =>
    rw [List.map_cons, List.sum_cons] at hin ⊢
    have hfirst : exec .capply { s with regs := { s.regs with bufCnt := n } } =
        .next (capplyState { s with regs := { s.regs with bufCnt := n } }) :=
      exec_capply_of_checks hf ⟨hseed, hbase, hcnt, Nat.le_trans (by dsimp only; omega) hin⟩
    have hnext : (s.regs.bufBase + n).toNat ≤ s.regs.bufBase.toNat + n.toNat := by
      rw [BitVec.toNat_add]
      exact Nat.mod_le _ _
    obtain ⟨t, hrun, heq⟩ := ih
      { capplyState { s with regs := { s.regs with bufCnt := n } } with
        regs := { s.regs with bufCnt := n, bufBase := s.regs.bufBase + n } }
      hf hseed hbase hcnt (Nat.le_trans (by dsimp only; omega) hin) hsize
    refine ⟨t, ?_, ?_⟩
    · rw [capplyPieces, hfirst]
      exact hrun
    · rw [heq, applyBytes_add]
      exact applyBytes_next_base s.cfg.pos s.regs.bufBase n _ _ _ (by omega)

/-! Byte by byte. -/

/-- CXORB fed a list of bytes is the byte step over the list (R116, R119). -/
theorem cxorbFeed_eq_xsteps (bs : List Byte) (s : State) (hf : s.status.faulted = false)
    (hseed : s.status.seeded = true) (hdin : s.wv .din = true) :
    ∃ t, cxorbFeed bs s = ((s.cipher.xsteps s.cfg.pos bs).1, .next t) ∧
      t.cipher = (s.cipher.xsteps s.cfg.pos bs).2 := by
  induction bs generalizing s with
  | nil => exact ⟨s, rfl, rfl⟩
  | cons b bs ih =>
    obtain ⟨-, -, hstep⟩ := cxorbTransformsDin { s with regs := { s.regs with din := b } } hf
    obtain ⟨t, hrun, hcipher⟩ := ih
      { s with
        regs := { s.regs with din := b }
        dout := (s.cipher.xstep s.cfg.pos b).1
        cipher := (s.cipher.xstep s.cfg.pos b).2 } hf hseed hdin
    refine ⟨t, ?_, hcipher⟩
    simp only [cxorbFeed, hstep hseed hdin, hrun, xsteps_cons]

/-! From a fresh CINIT. -/

/-- From the start of a keystream the loop xors each byte of the window with the keystream byte of its place (R118). -/
theorem readByte_applyBytes_of_streamAt {size : Nat} {pos : SeedLayout} {key : KeyWords} {len : Word64}
    {n addr x : Nat} {c : CipherState} {m : Memory} (h : StreamAt pos key len 0 c) (hin : addr + n ≤ size)
    (hwf : m.wf size = true) :
    (applyBytes pos n addr c m).2.readByte x =
      if addr ≤ x ∧ x < addr + n then m.readByte x ^^^ keystreamAt pos key len (x - addr) else m.readByte x := by
  rw [readByte_applyBytes pos hin hwf]
  split
  · next hx =>
    have hlt : x - addr < n := by omega
    rw [h.xsteps_fst (by rwa [length_readBytes]), getD_readBytes m n addr _ hlt, Nat.zero_add,
      Nat.add_sub_cancel' hx.1]
  · rfl

/-- The loop twice over one window, each time from the start of the same keystream, gives `MEM` back (R121). -/
theorem applyBytes_applyBytes_of_streamAt {size : Nat} {pos : SeedLayout} {key : KeyWords} {len : Word64}
    {n addr : Nat} {c c' : CipherState} {m : Memory} (h : StreamAt pos key len 0 c) (h' : StreamAt pos key len 0 c')
    (hin : addr + n ≤ size) (hwf : m.wf size = true) :
    (applyBytes pos n addr c' (applyBytes pos n addr c m).2).2 = m := by
  have hwf' : (applyBytes pos n addr c m).2.wf size = true := wf_applyBytes pos hin hwf
  refine eq_of_readByte (wf_applyBytes pos hin hwf') hwf fun x => ?_
  rw [readByte_applyBytes_of_streamAt h' hin hwf', readByte_applyBytes_of_streamAt h hin hwf]
  split
  · rw [BitVec.xor_assoc, BitVec.xor_self, BitVec.xor_zero]
  · rfl

/-- One pass over the window: CINIT and then CAPPLY (R121). -/
def cipherPass (s : State) : State := capplyState (cinitState s)

theorem execAll_cinit_capply {s : State} (is : List Instr) (hf : s.status.faulted = false)
    (hw : s.allWritten cinitRegs) (hbase : s.wv .bufBase = true) (hcnt : s.wv .bufCnt = true)
    (hin : s.regs.bufBase.toNat + s.regs.bufCnt.toNat ≤ s.cfg.memSize) :
    execAll (.cinit :: .capply :: is) s = execAll is (cipherPass s) := by
  have happly : exec .capply (cinitState s) = .next (cipherPass s) :=
    exec_capply_of_checks hf ⟨rfl, hbase, hcnt, hin⟩
  rw [execAll, exec_cinit_of_written hf hw, andThen, execAll, happly, andThen]

/-! The same window over two memories. -/

/-- What the loop changes of a byte, as an xor, does not depend on what `MEM` holds (R118). -/
theorem readByte_xor_applyBytes_congr {size : Nat} (pos : SeedLayout) {n addr : Nat} (a : Nat) (c : CipherState)
    {m m' : Memory} (hin : addr + n ≤ size) (hwf : m.wf size = true) (hwf' : m'.wf size = true) :
    m.readByte a ^^^ (applyBytes pos n addr c m).2.readByte a =
      m'.readByte a ^^^ (applyBytes pos n addr c m').2.readByte a := by
  rw [readByte_applyBytes pos hin hwf, readByte_applyBytes pos hin hwf']
  split
  · next ha =>
    have hlt : a - addr < n := by omega
    have hxor := xsteps_xor_congr pos (m.readBytes addr n) (m'.readBytes addr n) c (a - addr)
      (by rw [length_readBytes, length_readBytes]) (by rwa [length_readBytes])
    rw [getD_readBytes m n addr _ hlt, getD_readBytes m' n addr _ hlt, Nat.add_sub_cancel' ha.1] at hxor
    rw [BitVec.xor_comm, hxor, BitVec.xor_comm]
  · rw [BitVec.xor_self, BitVec.xor_self]

/-! The obligations. -/

/-- Settles O29: the loop over the window is the byte step over its bytes. -/
theorem capplyTransformsTheWindow : Obligations.CapplyTransformsTheWindow := by
  intro s hf hseed hbase hcnt hwf hin
  refine ⟨(capplyState s).mem, ?_, wf_applyBytes s.cfg.pos hin hwf, fun i hi => ?_, fun a ha => ?_⟩
  · rw [exec_capply_of_checks hf ⟨hseed, hbase, hcnt, hin⟩, ← applyBytes_fst s.cfg.pos hin hwf]
    rfl
  · rw [capplyState, readByte_applyBytes s.cfg.pos hin hwf, if_pos ⟨Nat.le_add_right _ i, Nat.add_lt_add_left hi _⟩,
      Nat.add_sub_cancel_left]
  · exact (readByte_applyBytes s.cfg.pos hin hwf).trans (if_neg ha)

/-- Settles O30: the loop over no bytes. -/
theorem capplyOfNothingChangesNothing : Obligations.CapplyOfNothingChangesNothing := by
  intro s hf hseed hbase hcnt hzero hle
  have hnat : s.regs.bufCnt.toNat = 0 := congrArg BitVec.toNat hzero
  rw [exec_capply_of_checks hf ⟨hseed, hbase, hcnt, by rwa [hnat]⟩, capplyState, hnat]
  rfl

/-- Settles O33: both are the loop over the whole window, cut or not. -/
theorem capplyPiecesEqualOneCapply : Obligations.CapplyPiecesEqualOneCapply := by
  intro s pieces total hf hseed hbase hcnt hsum hin hsize
  obtain ⟨t, hrun, heq⟩ := capplyPieces_eq_applyBytes pieces s hf hseed hbase hcnt (hsum ▸ hin) hsize
  rw [← hsum] at heq
  exact ⟨_, t, exec_capply_of_checks (s := { s with regs := { s.regs with bufCnt := total } }) hf
    ⟨hseed, hbase, hcnt, hin⟩, hrun, congrArg Prod.snd heq, congrArg Prod.fst heq⟩

/-- Settles O34: both are the byte step over the bytes of the window. -/
theorem cxorbBytesEqualOneCapply : Obligations.CxorbBytesEqualOneCapply := by
  intro s hf hseed hdin hbase hcnt hwf hin
  obtain ⟨t, hrun, hcipher⟩ :=
    cxorbFeed_eq_xsteps (s.mem.readBytes s.regs.bufBase.toNat s.regs.bufCnt.toNat) s hf hseed hdin
  exact ⟨capplyState s, t, _, exec_capply_of_checks hf ⟨hseed, hbase, hcnt, hin⟩, hrun,
    (readBytes_applyBytes s.cfg.pos hin hwf).symm, hcipher.trans (applyBytes_fst s.cfg.pos hin hwf).symm⟩

/-- Settles O36: two passes, each from the start of the same keystream, for a pass keeps KEY and LEN. -/
theorem cipherIsAnInvolution : Obligations.CipherIsAnInvolution := by
  intro s hf hw hwf hin
  have hregs : s.allWritten cinitRegs := fun r hr =>
    hw r (show r ∈ cinitRegs ++ [.bufBase, .bufCnt] from List.mem_append_left _ hr)
  have hbase := hw .bufBase (by decide)
  have hcnt := hw .bufCnt (by decide)
  refine ⟨cipherPass (cipherPass s), ?_, ?_⟩
  · exact (execAll_cinit_capply [.cinit, .capply] hf hregs hbase hcnt hin).trans
      (execAll_cinit_capply (s := cipherPass s) [] hf hregs hbase hcnt hin)
  · exact applyBytes_applyBytes_of_streamAt (streamAt_seed s.cfg.pos s.regs.key s.regs.len s.cipher)
      (streamAt_seed s.cfg.pos s.regs.key s.regs.len (cipherPass s).cipher) hin hwf

/-- Settles O37: the checks do not read `MEM`, so both runs raise or both run the loop. -/
theorem keystreamIgnoresTheData : Obligations.KeystreamIgnoresTheData := by
  intro s m t t' hf hwf hwf' hx hx'
  by_cases h : CapplyChecks s
  · obtain rfl := Host.Outcome.next.inj ((exec_capply_of_checks hf h).symm.trans hx)
    obtain rfl := Host.Outcome.next.inj ((exec_capply_of_checks (s := { s with mem := m }) hf h).symm.trans hx')
    obtain ⟨-, -, -, hin⟩ := h
    refine ⟨?_, rfl, fun a => readByte_xor_applyBytes_congr s.cfg.pos a s.cipher hin hwf hwf'⟩
    simp only [capplyState, applyBytes_fst_eq_xsteps]
  · obtain ⟨f, he⟩ := exec_capply_of_not_checks hf h
    obtain ⟨f', he'⟩ := exec_capply_of_not_checks (s := { s with mem := m }) hf h
    obtain rfl := Host.Outcome.next.inj (he.symm.trans hx)
    obtain rfl := Host.Outcome.next.inj (he'.symm.trans hx')
    exact ⟨rfl, rfl, fun a => by rw [State.raise_mem, State.raise_mem, BitVec.xor_self, BitVec.xor_self]⟩

end Sys2Proof.Proofs.Window
end

section
/-! The header readers and the walk over an archive (43_region_header.md R125; 44_archive_reader.md R135 to R141;
10_state.md R39; 60_exceptions.md R163). -/

namespace Sys2Proof.Proofs.Readers

open Sys2Proof Sys2Proof.Machine
open Sys2Proof.Proofs.ContainerFields (toNat_readField_littleEndian)
open Sys2Proof.Proofs.XorEngine (exec_of_body_ok)
open Sys2Proof.Proofs.Exceptions
open Sys2Proof.Proofs.Invariant (recordFields_sums recordState walkFinished_iff walkFinished_eq_false_iff
  toNat_ridx_succ)

/-- A command that latched no fault where FAULTED was 0 has gone through. -/
theorem commandBody_ok_of_not_faulted {i : Instr} {s t : State} (hi : i ≠ .srst) (hf : s.status.faulted = false)
    (hx : exec i s = .next t) (ht : t.status.faulted = false) : commandBody i s = .ok t := by
  rcases exec_cases hi s with ⟨hf', -⟩ | ⟨-, u, hb, he⟩ | ⟨-, f, -, he⟩
  · exact absurd (hf.symm.trans hf') nofun
  · rwa [← Host.Outcome.next.inj (he.symm.trans hx)]
  · rw [← Host.Outcome.next.inj (he.symm.trans hx)] at ht
    exact absurd ht nofun

/-! AHDR. -/

/-- AH_RSVD as a number: four bytes from header offset 4, the lowest address least significant (R39, log 19). -/
theorem reservedBytes_eq_ofNat (s : State) :
    s.reservedBytes = BitVec.ofNat 32 ((s.mem.readByte (s.regs.payBase.toNat + 4)).toNat
      + 2 ^ 8 * (s.mem.readByte (s.regs.payBase.toNat + 4 + 1)).toNat
      + 2 ^ 16 * (s.mem.readByte (s.regs.payBase.toNat + 4 + 2)).toNat
      + 2 ^ 24 * (s.mem.readByte (s.regs.payBase.toNat + 4 + 3)).toNat) := by
  rw [← toNat_readField_littleEndian, BitVec.ofNat_toNat, BitVec.setWidth_eq]
  rfl

/-- AHDR past its checks: the header is loaded and the walk stands before the first record (R135, R136). -/
theorem exec_ahdr_of_checks {s : State} (hf : s.status.faulted = false) (hmagic : s.wv .magic = true)
    (hbase : s.wv .payBase = true) (hlen : s.wv .payLen = true)
    (hin : s.regs.payBase.toNat + s.regs.payLen.toNat ≤ s.cfg.memSize) (hhead : 16 ≤ s.regs.payLen.toNat) :
    exec .ahdr s = .next { s with
      ah := s.headerFields
      rptr := 16
      ridx := 0
      status := s.status.afterAhdr (s.payField 0 == s.regs.magic) } :=
  exec_of_body_ok (i := .ahdr) nofun hf (ahdrBody_eq_ok.2 ⟨hmagic, hbase, hlen, hin, hhead, rfl⟩)

/-! ANEXT. -/

theorem exec_anext_end {s : State} (hf : s.status.faulted = false)
    (hopen : (s.status.arcok || s.status.notarc) = true) (hend : s.walkFinished = true) :
    exec .anext s = .next { s with status := s.status.afterEnd } :=
  exec_of_body_ok (i := .anext) nofun hf (anextBody_eq_ok.2 ⟨hopen, .inl ⟨hend, rfl⟩⟩)

/-- Everything an ANEXT from FAULTED 0 that latches no fault can do: end the walk, or yield a record that lies in an
admitted payload (R138, R139). -/
theorem anext_cases {s t : State} (hf : s.status.faulted = false) (hx : exec .anext s = .next t)
    (ht : t.status.faulted = false) :
    (s.walkFinished = true ∧ t = { s with status := s.status.afterEnd }) ∨
      (s.walkFinished = false ∧ s.regs.payBase.toNat + s.regs.payLen.toNat ≤ s.cfg.memSize ∧
        s.rptr.toNat + 16 + (s.recordFields s.rptr.toNat).nlen.toNat ≤ s.regs.payLen.toNat ∧
        s.ah.doff.toNat + (s.recordFields s.rptr.toNat).off.toNat + (s.recordFields s.rptr.toNat).size.toNat
          ≤ s.regs.payLen.toNat ∧ t = recordState s) := by
  obtain ⟨-, hend | ⟨hmore, -, -, hin, hname, hdata, rfl⟩⟩ :=
    anextBody_eq_ok.1 (commandBody_ok_of_not_faulted (i := .anext) nofun hf hx ht)
  · exact .inl hend
  · exact .inr ⟨hmore, hin, hname, hdata, rfl⟩

/-- While FAULTED is 1 ANEXT is ignored (R171). -/
theorem anext_of_faulted {s t : State} (hf : s.status.faulted = true) (hx : exec .anext s = .next t) : t = s :=
  (Host.Outcome.next.inj ((runCommand_of_faulted (body := anextBody) hf).symm.trans hx)).symm

/-! Runs of one command. -/

theorem andThen_eq_next {o : Host.Outcome State Fault Refusal} {f : State → Host.Outcome State Fault Refusal}
    {t : State} : andThen o f = .next t ↔ ∃ u, o = .next u ∧ f u = .next t := by
  cases o with
  | next u => simp [andThen]
  | fault r => simp [andThen]
  | refused r => simp [andThen]

theorem execAll_append_eq_next {is js : List Instr} {s t : State} :
    execAll (is ++ js) s = .next t ↔ ∃ u, execAll is s = .next u ∧ execAll js u = .next t := by
  induction is generalizing s with
  | nil => simp [execAll]
  | cons i is ih =>
    simp only [List.cons_append, execAll, andThen_eq_next, ih]
    constructor
    · rintro ⟨v, hv, u, hu, ht⟩
      exact ⟨u, ⟨v, hv, hu⟩, ht⟩
    · rintro ⟨u, ⟨v, hv, hu⟩, ht⟩
      exact ⟨v, hv, u, hu, ht⟩

/-- The last command of a run of one command. -/
theorem execAll_replicate_succ_eq_next {i : Instr} {k : Nat} {s t : State} :
    execAll (List.replicate (k + 1) i) s = .next t ↔
      ∃ u, execAll (List.replicate k i) s = .next u ∧ exec i u = .next t := by
  simp only [List.replicate_succ', execAll_append_eq_next, execAll, andThen_eq_next, Host.Outcome.next.injEq,
    exists_eq_right]

/-! The walk after a number of ANEXT commands. -/

/-- A walk over an archive of `count` records on which `k` ANEXT commands were run, none of them faulting (R141). -/
structure WalkedOn (count : Word) (k : Nat) (t : State) : Prop where
  faulted : t.status.faulted = false
  arcok : t.status.arcok = true
  notarc : t.status.notarc = false
  count_eq : t.ah.count = count
  ridx_eq : t.ridx.toNat = min k count.toNat
  recv_iff : 1 ≤ k → (t.status.recv = true ↔ k ≤ count.toNat)
  ended_iff : t.status.ended = true ↔ count.toNat < k

theorem WalkedOn.next {count : Word} {k : Nat} {s t : State} (h : WalkedOn count k s)
    (hx : exec .anext s = .next t) (ht : t.status.faulted = false) : WalkedOn count (k + 1) t := by
  have hridx := h.ridx_eq
  rcases anext_cases h.faulted hx ht with ⟨hend, rfl⟩ | ⟨hmore, -, -, -, rfl⟩
  · have hall : s.ridx.toNat = count.toNat := by
      rcases walkFinished_iff.1 hend with hnot | heq
      · exact absurd (h.notarc.symm.trans hnot) nofun
      · rw [heq, h.count_eq]
    exact ⟨ht, h.arcok, h.notarc, h.count_eq, hall.trans (by omega),
      fun _ => ⟨nofun, fun hle => absurd hle (by omega)⟩, fun _ => by omega, fun _ => rfl⟩
  · obtain ⟨-, hne⟩ := walkFinished_eq_false_iff.1 hmore
    have hleft : s.ridx.toNat ≤ s.ah.count.toNat := by
      rw [h.count_eq]
      omega
    obtain ⟨hsucc, hle⟩ := toNat_ridx_succ hleft hne
    rw [h.count_eq] at hle
    exact ⟨ht, h.arcok, h.notarc, h.count_eq, hsucc.trans (by omega), fun _ => ⟨fun _ => by omega, fun _ => rfl⟩,
      h.ended_iff.trans (by omega)⟩

theorem walkedOn_of_execAll {s t : State} {k : Nat} (h : WalkedOn s.ah.count 0 s)
    (hx : execAll (List.replicate k .anext) s = .next t) (ht : t.status.faulted = false) :
    WalkedOn s.ah.count k t := by
  induction k generalizing t with
  | zero =>
    obtain rfl := Host.Outcome.next.inj hx
    exact h
  | succ k ih =>
    obtain ⟨u, hu, hlast⟩ := execAll_replicate_succ_eq_next.1 hx
    have huf : u.status.faulted = false := by
      by_contra hyes
      have hfault := Bool.eq_true_of_not_eq_false hyes
      rw [anext_of_faulted hfault hlast] at ht
      exact hyes ht
    exact (ih hu huf).next hlast ht

/-- Where the payload is no archive, every ANEXT ends the walk (R136, R141). -/
theorem execAll_anext_of_notarc {s t : State} {k : Nat} (hf : s.status.faulted = false)
    (hnot : s.status.notarc = true) (hx : execAll (List.replicate k .anext) s = .next t) :
    t.status.faulted = false ∧ t.status.notarc = true ∧
      (1 ≤ k → t.status.recv = false ∧ t.status.ended = true) := by
  induction k generalizing t with
  | zero =>
    obtain rfl := Host.Outcome.next.inj hx
    exact ⟨hf, hnot, nofun⟩
  | succ k ih =>
    obtain ⟨u, hu, hlast⟩ := execAll_replicate_succ_eq_next.1 hx
    obtain ⟨huf, hunot, -⟩ := ih hu
    have hend := exec_anext_end huf (Bool.or_eq_true_iff.2 (.inr hunot)) (walkFinished_iff.2 (.inl hunot))
    obtain rfl := Host.Outcome.next.inj (hend.symm.trans hlast)
    exact ⟨huf, hunot, fun _ => ⟨rfl, rfl⟩⟩

/-! The obligations. -/

/-- Settles O39: RDCRH past its checks. -/
theorem rdcrhReadsTheHeader : Obligations.RdcrhReadsTheHeader := by
  intro s hf hbase hlen hin hcsz
  exact exec_of_body_ok (i := .rdcrh) nofun hf (rdcrhBody_eq_ok.2 ⟨hbase, hlen, hin, hcsz, rfl⟩)

/-- Settles O41: the comparison of the magic field decides the two flags, and nothing else. -/
theorem ahdrReadsTheHeader : Obligations.AhdrReadsTheHeader := by
  intro s hf hmagic hbase hlen hin hhead byteAt rsvd
  have hrsvd : s.reservedBytes = rsvd := reservedBytes_eq_ofNat s
  rw [exec_ahdr_of_checks hf hmagic hbase hlen hin hhead, State.headerFields, hrsvd]
  refine ⟨fun heq => ?_, fun hne => ?_⟩
  · rw [beq_iff_eq.2 heq]
    rfl
  · rw [beq_eq_false_iff_ne.2 hne]
    rfl

/-- Settles O42: ANEXT yields the record at RPTR, and none of the sums it stores wraps. -/
theorem anextYieldsTheRecord : Obligations.AnextYieldsTheRecord := by
  intro s hf harc hnot hne hbase hlen hin hname hdata
  obtain ⟨hnamep, hdatap, hnext⟩ := recordFields_sums (s := s) hname
  have hyield : exec .anext s = .next (recordState s) :=
    exec_of_body_ok (i := .anext) nofun hf (anextBody_eq_ok.2 ⟨Bool.or_eq_true_iff.2 (.inl harc),
      .inr ⟨walkFinished_eq_false_iff.2 ⟨hnot, hne⟩, hbase, hlen, hin, hname, hdata, rfl⟩⟩)
  exact ⟨_, hyield, rfl, rfl, rfl, rfl, rfl, hnamep, hdatap, hnext⟩

/-- Settles O43. -/
theorem anextEndsTheWalk : Obligations.AnextEndsTheWalk :=
  fun _ hf hopen hend => exec_anext_end hf (Bool.or_eq_true_iff.2 hopen) (walkFinished_iff.2 hend)

/-- Settles O44: only an ANEXT that yields moves RIDX, and what it yields has passed the bounds checks. -/
theorem yieldedSlicesLieInThePayload : Obligations.YieldedSlicesLieInThePayload := by
  intro s t hx hmoved
  rcases exec_cases (i := .anext) nofun s with ⟨hf, -⟩ | ⟨hf, u, hb, he⟩ | ⟨-, f, -, he⟩
  · exact absurd (congrArg State.ridx (anext_of_faulted hf hx)) hmoved
  · obtain rfl := Host.Outcome.next.inj (he.symm.trans hx)
    have ht : u.status.faulted = false := (commandBody_ok_faulted (i := .anext) nofun hb).trans hf
    rcases anext_cases hf hx ht with ⟨-, rfl⟩ | ⟨-, hin, hname, hdata, rfl⟩
    · exact absurd rfl hmoved
    · obtain ⟨hnamep, hdatap, hnext⟩ := recordFields_sums hname
      refine ⟨?_, ?_, hin, hnamep, ?_, rfl, ht⟩
      all_goals dsimp only [recordState]
      · rwa [hnamep]
      · rwa [hdatap]
      · rw [hnext, hnamep]
  · obtain rfl := Host.Outcome.next.inj (he.symm.trans hx)
    exact absurd rfl hmoved

/-- Settles O45: ANEXT by ANEXT, from a walk on which none was run. -/
theorem recordCountLaw : Obligations.RecordCountLaw := by
  refine ⟨fun s t k hf harc hnot hended hridx hx ht => ?_, fun s t k hf hnot hk hx => ?_⟩
  · have hstart : WalkedOn s.ah.count 0 s :=
      ⟨hf, harc, hnot, rfl, by rw [hridx, Nat.zero_min]; rfl, nofun, by simp [hended]⟩
    have hat := walkedOn_of_execAll hstart hx ht
    exact ⟨hat.ridx_eq, hat.recv_iff, hat.ended_iff⟩
  · obtain ⟨htf, -, hflags⟩ := execAll_anext_of_notarc hf hnot hx
    obtain ⟨hrecv, hended⟩ := hflags hk
    exact ⟨hrecv, hended, htf⟩

/-- Settles O46: the AHDR went through, and its comparison failed. -/
theorem notAnArchiveIsASignal : Obligations.NotAnArchiveIsASignal := by
  intro s t hf hx ht hne
  obtain ⟨-, -, -, -, -, rfl⟩ := ahdrBody_eq_ok.1 (commandBody_ok_of_not_faulted (i := .ahdr) nofun hf hx ht)
  rw [beq_eq_false_iff_ne.2 hne] at ht ⊢
  exact ⟨rfl, rfl, rfl, rfl, exec_anext_end ht rfl rfl⟩

/-- Settles O53: with no header read ANEXT raises `SequenceFault`; after an AHDR the registers it tests are written, by
the invariant; and where it raises nothing FCAUSE is 0. -/
theorem anextNeverRaisesUnwritten : Obligations.AnextNeverRaisesUnwritten := by
  intro s t hinv hf hx
  obtain ⟨hclear, -⟩ := hinv.faultLatch
  obtain ⟨-, -, hwalk, -⟩ := hinv.walk
  cases ht : t.status.faulted with
  | false =>
    have hcause : t.fcause = s.fcause := by
      rcases anext_cases hf hx ht with ⟨-, rfl⟩ | ⟨-, -, -, -, rfl⟩ <;> rfl
    rw [hcause, (hclear hf).1]
    decide
  | true =>
    cases hopen : (s.status.arcok || s.status.notarc) with
    | false =>
      obtain rfl := Host.Outcome.next.inj ((exec_of_no_prerequisite (i := .anext) hf hopen).symm.trans hx)
      show (4 : BitVec 8) ≠ 5
      decide
    | true =>
      obtain ⟨-, hbase, hlen, -⟩ := hwalk hopen
      exact fcause_ne_five_of_allWritten (i := .anext) hf (allWritten_pair hbase hlen) ht hx

end Sys2Proof.Proofs.Readers
end
